-- ==== Sys2Proof/Word.lean ====
section
/-!
DEFINITION. The two word types of the block.

A byte of the stream and of every header field is an unsigned 8-bit value (00_scope.md R5, R6); a command word, a response
value and every readable register have 32 bits (R5).
-/

namespace Sys2Proof

/-- An unsigned 8-bit value: a stream byte, a header field, a byte operand (00_scope.md R6). -/
abbrev Byte := BitVec 8

/-- A 32-bit value: a command word, a register, a response value (00_scope.md R5). -/
abbrev Word := BitVec 32

end Sys2Proof
end

