-- ==== Sys2Proof/Syntax.lean ====
section
/-!
DEFINITION. The commands of the block: one constructor per row of spec/opcode_table.json (30_encoding.md R93).
-/

namespace Sys2Proof

/-- The region selector `sel` of SIZC: 0 is PRG, 1 is CHR (30_encoding.md R92). -/
inductive Region where
  | prg
  | chr
deriving DecidableEq, Repr

/-- A command, with its operands as 30_encoding.md R92 assembles them. -/
inductive Instr where
  /-- PUSH b: present the next stream byte (42_host_commands.md R191). -/
  | push (b : Byte)
  /-- EOS: the stream has ended (42_host_commands.md R195). -/
  | eos
  /-- RDREG idx: read one register (42_host_commands.md R200). -/
  | rdreg (idx : Byte)
  /-- GETBIT pos, b: the single-bit accessor; `pos` is signed, -128 to 127 (40_header_decoder.md R132, log 12). -/
  | getbit (pos : Int) (b : Byte)
  /-- MAPC f6, f7: the mapper-id composer, operands in the source's order (40_header_decoder.md R133). -/
  | mapc (f6 f7 : Byte)
  /-- SIZC sel, n: the bank size calculator (41_bank_extractor.md R173). -/
  | sizc (sel : Region) (n : Byte)
  /-- CLEAR: soft reset (42_host_commands.md R205). -/
  | clear
deriving DecidableEq, Repr

/-- The instruction's mnemonic in spec/opcode_table.json. -/
def Instr.mnemonic : Instr → String
  | .push _ => "PUSH"
  | .eos => "EOS"
  | .rdreg _ => "RDREG"
  | .getbit _ _ => "GETBIT"
  | .mapc _ _ => "MAPC"
  | .sizc _ _ => "SIZC"
  | .clear => "CLEAR"

end Sys2Proof
end

