-- ==== Sys2Proof/WellFormed.lean ====
section
/-!
DEFINITION. The instructions that a command word can express. The byte operands and the selector are in range by their
types; the one operand that needs a check is GETBIT's signed position (30_encoding.md R92, R99).
-/

namespace Sys2Proof

/-- The position fits the signed 8-bit field w[15:8]: -128 ≤ pos ≤ 127 (30_encoding.md R92). -/
abbrev posInRange (pos : Int) : Prop := -128 ≤ pos ∧ pos ≤ 127

/-- Every operand is one that the encoding can hold. -/
def Instr.wf : Instr → Bool
  | .push _ => true
  | .eos => true
  | .rdreg _ => true
  | .getbit pos _ => decide (posInRange pos)
  | .mapc _ _ => true
  | .sizc _ _ => true
  | .clear => true

end Sys2Proof
end

