-- ==== Sys2Proof/Decode.lean ====
section
/-!
DEFINITION. The command word (30_encoding.md part 2): the opcode map, the total decoder, the encoder, and the host's
entry to the decoder for a row of spec/opcode_table.json.

A command is one 32-bit word that the host presents whole (R90); it is never stored in bytes, so no byte order applies.
-/

namespace Sys2Proof

/-- One row of the opcode map of 30_encoding.md R93: `w` selects the row when `w & mask == pat`. -/
structure OpcodeRow where
  mnemonic : String
  pat : Word
  mask : Word
deriving DecidableEq, Repr

/-- The word selects the row (30_encoding.md R93). -/
def OpcodeRow.selects (r : OpcodeRow) (w : Word) : Bool := w &&& r.mask == r.pat

/-- The opcode map of 30_encoding.md R93, row by row. -/
def opcodeTable : List OpcodeRow :=
  [⟨"PUSH",   0x10000000, 0xFFFFFF00⟩,
   ⟨"EOS",    0x20000000, 0xFFFFFFFF⟩,
   ⟨"RDREG",  0x30000000, 0xFFFFFF00⟩,
   ⟨"GETBIT", 0x40000000, 0xFFFF0000⟩,
   ⟨"MAPC",   0x50000000, 0xFFFF0000⟩,
   ⟨"SIZC",   0x60000000, 0xFFFFFE00⟩,
   ⟨"CLEAR",  0xF0000000, 0xFFFFFFFF⟩]

/-- Why a word is no command. Either way it raises IllegalCommand (30_encoding.md R94, R95). -/
inductive Illegal where
  /-- Opcode 0x0 or 0x7 to 0xE (R94). -/
  | reservedOpcode
  /-- A defined opcode with a nonzero bit that its format marks 0 (R95). -/
  | reservedBits
deriving DecidableEq, Repr

/-- `op = w[31:28]` (30_encoding.md R90). -/
def opcodeOf (w : Word) : BitVec 4 := w.extractLsb' 28 4

/-- `w[7:0]`: `b`, `idx`, `f6` or `n` (30_encoding.md R92). -/
def loByte (w : Word) : Byte := w.extractLsb' 0 8

/-- `w[15:8]`: the bits of `pos`, or `f7` (30_encoding.md R92). -/
def hiByte (w : Word) : Byte := w.extractLsb' 8 8

/-- `sel = w[8]` (30_encoding.md R92). -/
def selOf (w : Word) : Region := if w.getLsbD 8 then .chr else .prg

/-- The command `i` if the bits `w[27 : lo]`, which its format reserves, are all zero (30_encoding.md R95). -/
def ifReservedZero (w : Word) (lo : Nat) (i : Instr) : Except Illegal Instr :=
  if w.extractLsb' lo (28 - lo) = 0 then .ok i else .error .reservedBits

/-- `Decode(w)`, total on 32-bit words (30_encoding.md R97). -/
def decode (w : Word) : Except Illegal Instr :=
  if opcodeOf w = 0x1 then ifReservedZero w 8 (.push (loByte w))
  else if opcodeOf w = 0x2 then ifReservedZero w 0 .eos
  else if opcodeOf w = 0x3 then ifReservedZero w 8 (.rdreg (loByte w))
  else if opcodeOf w = 0x4 then ifReservedZero w 16 (.getbit (hiByte w).toInt (loByte w))
  else if opcodeOf w = 0x5 then ifReservedZero w 16 (.mapc (loByte w) (hiByte w))
  else if opcodeOf w = 0x6 then ifReservedZero w 9 (.sizc (selOf w) (loByte w))
  else if opcodeOf w = 0xF then ifReservedZero w 0 .clear
  else .error .reservedOpcode

/-- `sel` as the bit w[8] (30_encoding.md R92). -/
def selBit : Region → Word
  | .prg => 0
  | .chr => 1

/-- The word of an instruction, by the forms of 30_encoding.md R91 and R99. `pos & 0xFF` is the low byte of the
position's two's complement. -/
def encode : Instr → Word
  | .push b => 0x10000000 ||| b.setWidth 32
  | .eos => 0x20000000
  | .rdreg idx => 0x30000000 ||| idx.setWidth 32
  | .getbit pos b => 0x40000000 ||| ((BitVec.ofInt 8 pos).setWidth 32 <<< 8) ||| b.setWidth 32
  | .mapc f6 f7 => 0x50000000 ||| (f7.setWidth 32 <<< 8) ||| f6.setWidth 32
  | .sizc sel n => 0x60000000 ||| (selBit sel <<< 8) ||| n.setWidth 32
  | .clear => 0xF0000000

/-- The command word whose low `nbits` bits are those of `w` and whose other bits are 0. -/
def tableWord (nbits w : Nat) : Word := BitVec.ofNat 32 (w % 2 ^ nbits)

/-- The instruction the decoder reads from a word numbered as spec/opcode_table.json numbers it. -/
def decodeTableWord (nbits w : Nat) : Option Instr :=
  match decode (tableWord nbits w) with
  | .ok i => some i
  | .error _ => none

end Sys2Proof
end

