-- ==== Sys2Proof/Config.lean ====
section
/-!
DEFINITION. The implementation parameters of 00_scope.md R5 that the model's types and operations name, and the one
parameter the spec leaves OPEN.
-/

namespace Sys2Proof

/-- `HDR_LEN`: the header is exactly 16 bytes (00_scope.md R5). -/
abbrev Config.hdrLen : Nat := 16

/-- `PRG_UNIT`: bytes of one program bank (00_scope.md R5). -/
abbrev Config.prgUnit : Nat := 16384

/-- `CHR_UNIT`: bytes of one character bank (00_scope.md R5). -/
abbrev Config.chrUnit : Nat := 8192

/-- `NAMED_COUNT`: entries of the mapper-name table, ids 0 to 10 (00_scope.md R5). -/
abbrev Config.namedCount : Nat := 11

/-- `MAPPER_NAME(2..10)`: the OPEN parameter of 00_scope.md R5 and 40_header_decoder.md R130 (92_eei_decisions.md D20).
It has no body: the strings are a free value, and no proof can see one (log 14). -/
opaque Config.openMapperName : Nat → String

end Sys2Proof
end

