-- ==== Sys2Proof/Machine/State.lean ====
section
/-!
DEFINITION. The state of the block (10_state.md), the host agent beside it, and the state after reset (R47, R260).

The state is plain data. The decoded group is one optional record, because the spec gives it a state of its own before
the latch: "no value" means that its registers hold nothing (10_state.md R47, log 4). The fields `issue` and `resp` are
the model's, not the block's: the host's actions to come, and the response port (logs 1 and 2).
-/

namespace Sys2Proof.Machine

open Sys2Proof

/-- The sequencing state `PHASE` (10_state.md R22). The codes 5 to 7 are never produced, and none is a constructor. -/
inductive Phase where
  | hdr
  | prg
  | chr
  | done
  | error
deriving DecidableEq, Repr

/-- The errors that `raise` can latch in `ERR` (60_exceptions.md R231, codes 1 to 5). -/
inductive ErrorCode where
  | truncatedInput
  | invalidMagic
  | invalidBitPosition
  | illegalCommand
  | notDecoded
deriving DecidableEq, Repr

/-- The status of a response (60_exceptions.md R231): OK, an error of `ErrorCode`, or Aborted, which is never latched. -/
inductive Status where
  | ok
  | error (e : ErrorCode)
  | aborted
deriving DecidableEq, Repr

/-- A response `(st, val)` (30_encoding.md R98, 60_exceptions.md R230). -/
structure Response where
  st : Status
  val : Word
deriving DecidableEq, Repr

/-- What the host does next (00_scope.md R4): issue a command word, or have the reset input asserted (R260, log 6). -/
inductive HostAct where
  | command (w : Word)
  | assertReset
deriving DecidableEq, Repr

/-- The header buffer's contents: the 16 wire bytes `h[0..15]` (10_state.md R26). -/
abbrev Header := Vector Byte Config.hdrLen

/-- The decoded group (10_state.md R30 to R43), once it holds values: the decoded header, the region sizes, the byte
counters, and the two CRC accumulators behind the views `PRG_CRC` and `CHR_CRC`. -/
structure DecodedGroup where
  magic : Word
  prgBanks : Word
  chrBanks : Word
  flags6 : Word
  flags7 : Word
  ramBanks : Word
  flags9 : Word
  tailLo : Word
  tailHi : Word
  mapper : Word
  fields : Word
  prgSize : Word
  chrSize : Word
  prgCnt : Word
  chrCnt : Word
  prgAcc : Word
  chrAcc : Word
deriving DecidableEq, Repr

/-- The machine: the block's registers, the host's actions to come and the response port. -/
structure State where
  /-- `PHASE` (10_state.md R22). -/
  phase : Phase
  /-- `HDR_VALID` (R27). -/
  hdrValid : Bool
  /-- `EOS_SEEN` (R25). -/
  eosSeen : Bool
  /-- `ERR` (R24): none is the code 0. -/
  err : Option ErrorCode
  /-- `ERRINFO` (R24). -/
  errInfo : Word
  /-- `HDR_CNT` (R26). -/
  hdrCnt : BitVec 5
  /-- `HDR_BUF[0..15]` (R26). -/
  hdrBuf : Header
  /-- The decoded group (R30); none is "no value" (R47). -/
  decoded : Option DecodedGroup
  /-- The host agent: its actions to come, oldest first (log 1). -/
  issue : List HostAct
  /-- The response port: what the step just taken answered, if it executed a command (log 2). -/
  resp : Option Response
deriving DecidableEq, Repr

/-- The stops of the model. Neither is an error of the spec, which answers every command; each stands where a state that
no run from reset reaches leaves an effect of the spec without meaning. -/
inductive Fault where
  /-- Raised by PUSH in phase HDR while `HDR_CNT` is 16 or more: `HDR_BUF[HDR_CNT]` does not exist (10_state.md R26).
  Safe (log 7). -/
  | headerBufferFull
  /-- Raised by PUSH in phase PRG or CHR while the decoded group holds no value, so that the accumulator and the counter
  of 42_host_commands.md R193 are not there to update. Safe (log 8). -/
  | groupHoldsNoValue
deriving DecidableEq, Repr

/-- What the model gives no meaning. -/
inductive Refusal where
  /-- Raised by an arm of `exec` whose instruction has no meaning yet, with its mnemonic. Safe. No arm raises it now. -/
  | notModelled (mnemonic : String)
deriving DecidableEq, Repr

/-- The machine after reset (10_state.md R47, 70_reset_and_hazards.md R260). `HDR_BUF`'s reset contents are unspecified
and unobservable: zero is a DESIGN CHOICE (log 5). The host has nothing to issue (log 1) and no response stands (log 2). -/
def State.reset : State where
  phase := .hdr
  hdrValid := false
  eosSeen := false
  err := none
  errInfo := 0
  hdrCnt := 0
  hdrBuf := Vector.replicate Config.hdrLen 0
  decoded := none
  issue := []
  resp := none

end Sys2Proof.Machine
end

