-- ==== Sys2Proof/Machine/Crc.lean ====
section
/-!
DEFINITION. The CRC-32 engine (41_bank_extractor.md R167 to R171, R177) and the CRC views (10_state.md R43).

The parameters are those the spec supplies from general knowledge and uses normatively
(93_implementation_defined.md G1, log 16).
-/

namespace Sys2Proof.Machine

open Sys2Proof

/-- The generator polynomial in bit-reversed form (41_bank_extractor.md R167). -/
def crcPoly : Word := 0xEDB88320

/-- The initial register and the final exclusive-or (41_bank_extractor.md R167). -/
def crcOnes : Word := 0xFFFFFFFF

/-- One pass of the loop of `CrcStep` (41_bank_extractor.md R168). -/
def crcBit (acc : Word) : Word := if acc.getLsbD 0 then (acc >>> 1) ^^^ crcPoly else acc >>> 1

/-- `n` passes of the loop. -/
def crcBits : Nat → Word → Word
  | 0, acc => acc
  | n + 1, acc => crcBits n (crcBit acc)

/-- `CrcStep(acc, b)` (41_bank_extractor.md R168). -/
def crcStep (acc : Word) (b : Byte) : Word := crcBits 8 (acc ^^^ b.setWidth 32)

/-- `Crc32(s)` (41_bank_extractor.md R169). -/
def crc32 (s : List Byte) : Word := s.foldl crcStep crcOnes ^^^ crcOnes

/-- The table entry `T[i] = CrcStep(i, 0)` (41_bank_extractor.md R177). -/
def crcTable (i : Byte) : Word := crcStep (i.setWidth 32) 0

/-- The table-driven step (41_bank_extractor.md R177). -/
def crcTableStep (acc : Word) (b : Byte) : Word :=
  (acc >>> 8) ^^^ crcTable ((acc ^^^ b.setWidth 32).setWidth 8)

/-- The view `PRG_CRC` (10_state.md R43). -/
def DecodedGroup.prgCrc (d : DecodedGroup) : Word := d.prgAcc ^^^ crcOnes

/-- The view `CHR_CRC` (10_state.md R43). -/
def DecodedGroup.chrCrc (d : DecodedGroup) : Word := d.chrAcc ^^^ crcOnes

end Sys2Proof.Machine
end

