-- ==== Sys2Proof/Machine/Operands.lean ====
section
/-!
DEFINITION. Operand forms and register names: the packing of bytes into words (00_scope.md R9), the codes of phases and
statuses, the response as a bus word, and the RDREG register map (10_state.md R44).
-/

namespace Sys2Proof.Machine

open Sys2Proof

/-- `pack_le(s)`: the first byte of the sequence goes to bits 7:0 (00_scope.md R9, 20_memory.md R61). -/
def packLe : List Byte → Word
  | [] => 0
  | b :: bs => b.setWidth 32 ||| (packLe bs <<< 8)

/-- A truth value as a register bit (00_scope.md R10). -/
def bitWord (c : Bool) : Word := if c then 1 else 0

/-- The value of `PHASE` (10_state.md R22). -/
def Phase.code : Phase → BitVec 3
  | .hdr => 0
  | .prg => 1
  | .chr => 2
  | .done => 3
  | .error => 4

/-- The code of an error (60_exceptions.md R231). -/
def ErrorCode.code : ErrorCode → BitVec 4
  | .truncatedInput => 1
  | .invalidMagic => 2
  | .invalidBitPosition => 3
  | .illegalCommand => 4
  | .notDecoded => 5

/-- The 4-bit status `st` of a response (60_exceptions.md R231). -/
def Status.code : Status → BitVec 4
  | .ok => 0
  | .error e => e.code
  | .aborted => 6

/-- The value of the register `ERR`: 0 when no error is latched (10_state.md R24). -/
def errCode : Option ErrorCode → BitVec 4
  | none => 0
  | some e => e.code

/-- The response as one 36-bit bus word: `st` in bits 35:32, `val` in bits 31:0 (30_encoding.md R98). -/
def Response.pack (r : Response) : BitVec 36 := r.st.code ++ r.val

/-- When a register may be read (10_state.md R44, the group column). -/
inductive RegGroup where
  | always
  | decoded
deriving DecidableEq, Repr

/-- The readable registers (10_state.md R44). -/
inductive Reg where
  | status
  | errInfo
  | hdrCnt
  | magic
  | prgBanks
  | chrBanks
  | flags6
  | flags7
  | ramBanks
  | flags9
  | tailLo
  | tailHi
  | mapper
  | fields
  | prgSize
  | chrSize
  | prgCnt
  | chrCnt
  | prgCrc
  | chrCrc
deriving DecidableEq, Repr

/-- The registers in the order of 10_state.md R44. -/
def Reg.all : List Reg :=
  [.status, .errInfo, .hdrCnt, .magic, .prgBanks, .chrBanks, .flags6, .flags7, .ramBanks, .flags9, .tailLo, .tailHi,
   .mapper, .fields, .prgSize, .chrSize, .prgCnt, .chrCnt, .prgCrc, .chrCrc]

/-- The RDREG index of a register (10_state.md R44). -/
def Reg.index : Reg → Byte
  | .status => 0x00
  | .errInfo => 0x01
  | .hdrCnt => 0x02
  | .magic => 0x10
  | .prgBanks => 0x11
  | .chrBanks => 0x12
  | .flags6 => 0x13
  | .flags7 => 0x14
  | .ramBanks => 0x15
  | .flags9 => 0x16
  | .tailLo => 0x17
  | .tailHi => 0x18
  | .mapper => 0x19
  | .fields => 0x1A
  | .prgSize => 0x20
  | .chrSize => 0x21
  | .prgCnt => 0x22
  | .chrCnt => 0x23
  | .prgCrc => 0x24
  | .chrCrc => 0x25

/-- The group of a register (10_state.md R44). -/
def Reg.group : Reg → RegGroup
  | .status => .always
  | .errInfo => .always
  | .hdrCnt => .always
  | .magic => .decoded
  | .prgBanks => .decoded
  | .chrBanks => .decoded
  | .flags6 => .decoded
  | .flags7 => .decoded
  | .ramBanks => .decoded
  | .flags9 => .decoded
  | .tailLo => .decoded
  | .tailHi => .decoded
  | .mapper => .decoded
  | .fields => .decoded
  | .prgSize => .decoded
  | .chrSize => .decoded
  | .prgCnt => .decoded
  | .chrCnt => .decoded
  | .prgCrc => .decoded
  | .chrCrc => .decoded

/-- The bits a register uses; the bits above read 0 (10_state.md R44, R45). -/
def Reg.widthUsed : Reg → Nat
  | .status => 12
  | .errInfo => 32
  | .hdrCnt => 5
  | .magic => 32
  | .prgBanks => 8
  | .chrBanks => 8
  | .flags6 => 8
  | .flags7 => 8
  | .ramBanks => 8
  | .flags9 => 8
  | .tailLo => 32
  | .tailHi => 16
  | .mapper => 9
  | .fields => 23
  | .prgSize => 23
  | .chrSize => 22
  | .prgCnt => 23
  | .chrCnt => 22
  | .prgCrc => 32
  | .chrCrc => 32

/-- The register at an index, if 10_state.md R44 lists one there. -/
def Reg.ofIndex (idx : Byte) : Option Reg := Reg.all.find? (fun r => r.index == idx)

end Sys2Proof.Machine
end

