-- ==== Sys2Proof/Machine/Flags.lean ====
section
/-!
DEFINITION. Flags and bit fields: the single-bit accessor (40_header_decoder.md R131), the `FIELDS` word (R123 to R127),
the mapper id and its class (R128, R129), the mapper names (R130), and the `STATUS` word (10_state.md R23).
-/

namespace Sys2Proof.Machine

open Sys2Proof

/-- `(v >> pos) & 1`, the body of `GetBit` at a legal position (40_header_decoder.md R131). -/
def bitAt (v : Byte) (pos : Nat) : Byte := (v >>> pos) &&& 1

/-- `GetBit(v, pos)`: the bit, or the `info` of InvalidBitPosition, which is the position as 32-bit two's complement
(40_header_decoder.md R131). -/
def getBit (v : Byte) (pos : Int) : Except Word Byte :=
  if pos < 0 ∨ pos > 7 then .error (BitVec.ofInt 32 pos) else .ok (bitAt v pos.toNat)

/-- `Unpack(f6, f7, f9)`: the `FIELDS` word (40_header_decoder.md R127, 10_state.md R40). Its `GetBit` calls have the
fixed positions 0 to 3, so none can raise. -/
def unpackFields (f6 f7 f9 : Byte) : Word :=
  (bitAt f6 0).setWidth 32
    ||| ((bitAt f6 1).setWidth 32 <<< 1)
    ||| ((bitAt f6 2).setWidth 32 <<< 2)
    ||| ((bitAt f6 3).setWidth 32 <<< 3)
    ||| ((bitAt f7 0).setWidth 32 <<< 4)
    ||| ((bitAt f9 0).setWidth 32 <<< 5)
    ||| ((f7.extractLsb' 1 3).setWidth 32 <<< 8)
    ||| ((f9.extractLsb' 1 7).setWidth 32 <<< 16)

/-- `ComposeMapper(f6, f7)` (40_header_decoder.md R128). -/
def composeMapper (f6 f7 : Byte) : Byte := ((f6 >>> 4) &&& 0xF) ||| (f7 &&& 0xF0)

/-- `Named(id)`: the bounds check against the 11-entry name table (40_header_decoder.md R129). -/
def mapperNamed (id : Byte) : Bool := decide (id.toNat < Config.namedCount)

/-- The id in bits 7:0 and `NAMED` in bit 8: the `MAPPER` word and the value of MAPC (10_state.md R39,
40_header_decoder.md R133). -/
def mapperWord (f6 f7 : Byte) : Word :=
  (composeMapper f6 f7).setWidth 32 ||| (bitWord (mapperNamed (composeMapper f6 f7)) <<< 8)

/-- `MAPPER_NAME(id)` for a named id; no string for an unnamed one (40_header_decoder.md R130). The names 2 to 10 are the
OPEN parameter (log 14). -/
def mapperName (id : Byte) : Option String :=
  if id = 0 then some "NROM"
  else if id = 1 then some "MMC1"
  else if mapperNamed id then some (Config.openMapperName id.toNat)
  else none

/-- `STATUS`, composed from the registers it names (10_state.md R23). -/
def State.statusWord (s : State) : Word :=
  s.phase.code.setWidth 32
    ||| (bitWord s.hdrValid <<< 3)
    ||| (bitWord s.eosSeen <<< 4)
    ||| ((errCode s.err).setWidth 32 <<< 8)

end Sys2Proof.Machine
end

