-- ==== Sys2Proof/Machine/Ops.lean ====
section
/-!
DEFINITION. The operations every command shares: the response (60_exceptions.md R230), the error entry `raise` (R233),
the ways out of phase ERROR (R235), the ERROR gate (42_host_commands.md R190), and the register read (R200).
-/

namespace Sys2Proof.Machine

open Sys2Proof

/-- What a command's step answers the model: the next state, or one of its two named stops. -/
abbrev Result := Host.Outcome State Fault Refusal

/-- `respond(st, val)`: put the response on the port (60_exceptions.md R230). -/
def respond (st : Status) (val : Word) (s : State) : State := { s with resp := some ⟨st, val⟩ }

/-- The latch of the first error: `ERR` and `ERRINFO` are written only while `ERR` is 0 (60_exceptions.md R233). -/
def latchError (e : ErrorCode) (info : Word) (s : State) : State :=
  match s.err with
  | none => { s with err := some e, errInfo := info }
  | some _ => s

/-- `raise E(info)`, the block's trap entry: latch the first error, enter phase ERROR, answer the code
(60_exceptions.md R233). -/
def raise (e : ErrorCode) (info : Word) (s : State) : State :=
  respond (.error e) 0 { latchError e info s with phase := .error }

/-- The effect of CLEAR on the block: every piece of state takes its reset value (10_state.md R47). The host's list stays
the host's, and the port is the caller's to drive. With `hardwareReset` this is the only way out of phase ERROR
(60_exceptions.md R235). -/
def clearBlock (s : State) : State := { State.reset with issue := s.issue }

/-- The reset input is asserted: the same effect as CLEAR (70_reset_and_hazards.md R260), with no command to answer. -/
def hardwareReset (s : State) : State := clearBlock s

/-- A step in which the host issues nothing: the block holds its state (60_exceptions.md R240), and no response stands
on the port (log 3). -/
def idle (s : State) : State := { s with resp := none }

/-- The ERROR gate: in phase ERROR the command answers Aborted and changes nothing (42_host_commands.md R190). -/
def unlessError (s : State) (act : State → Result) : Result :=
  if s.phase = .error then .next (respond .aborted 0 s) else act s

/-- A word that decodes to no command raises IllegalCommand with the word, in every phase (42_host_commands.md R190). -/
def executeIllegal (w : Word) (s : State) : Result := .next (raise .illegalCommand w s)

/-- The value a register of the decoded group reads as, once the group holds values (10_state.md R31 to R43); none for
the registers of the other group. -/
def DecodedGroup.value (d : DecodedGroup) : Reg → Option Word
  | .status => none
  | .errInfo => none
  | .hdrCnt => none
  | .magic => some d.magic
  | .prgBanks => some d.prgBanks
  | .chrBanks => some d.chrBanks
  | .flags6 => some d.flags6
  | .flags7 => some d.flags7
  | .ramBanks => some d.ramBanks
  | .flags9 => some d.flags9
  | .tailLo => some d.tailLo
  | .tailHi => some d.tailHi
  | .mapper => some d.mapper
  | .fields => some d.fields
  | .prgSize => some d.prgSize
  | .chrSize => some d.chrSize
  | .prgCnt => some d.prgCnt
  | .chrCnt => some d.chrCnt
  | .prgCrc => some d.prgCrc
  | .chrCrc => some d.chrCrc

/-- The value a register holds, if it holds one: the always group always does (10_state.md R23, R24, R26), the decoded
group only while it holds values (R47). -/
def State.regValue (s : State) : Reg → Option Word
  | .status => some s.statusWord
  | .errInfo => some s.errInfo
  | .hdrCnt => some (s.hdrCnt.setWidth 32)
  | r => s.decoded.bind (fun d => d.value r)

/-- The register's group lets it be read now: a decoded-group register only while `HDR_VALID = 1` (10_state.md R44). -/
def State.mayRead (s : State) (r : Reg) : Bool := r.group == .always || s.hdrValid

/-- The read of a mapped register: its value, or NotDecoded with the index (42_host_commands.md R200, R201). A register
that holds no value is NotDecoded whatever `HDR_VALID` says (10_state.md R47, log 9). -/
def readReg (r : Reg) (s : State) : State :=
  match s.mayRead r, s.regValue r with
  | true, some v => respond .ok v s
  | _, _ => raise .notDecoded (r.index.setWidth 32) s

end Sys2Proof.Machine
end

