-- ==== Sys2Proof/Machine/BankExtractor.lean ====
section
/-!
DEFINITION. The BankExtractor unit (41_bank_extractor.md): the size calculator, the region sequencing, the region byte
through the CRC engine, and the command SIZC.
-/

namespace Sys2Proof.Machine

open Sys2Proof

/-- `SizeCalc(sel, n)`: `n << 14` for PRG, `n << 13` for CHR (41_bank_extractor.md R160 to R162). -/
def sizeCalc : Region → Byte → Word
  | .prg, n => n.setWidth 32 <<< 14
  | .chr, n => n.setWidth 32 <<< 13

/-- `Advance()`: the phase moves past every region that is complete, PRG first (41_bank_extractor.md R166). -/
def advance (p : Phase) (d : DecodedGroup) : Phase :=
  let q := if p = .prg ∧ d.prgCnt = d.prgSize then Phase.chr else p
  if q = .chr ∧ d.chrCnt = d.chrSize then .done else q

/-- The group after one PRG byte (42_host_commands.md R193). -/
def DecodedGroup.takePrg (d : DecodedGroup) (b : Byte) : DecodedGroup :=
  { d with prgAcc := crcStep d.prgAcc b, prgCnt := d.prgCnt + 1 }

/-- The group after one CHR byte (42_host_commands.md R193). -/
def DecodedGroup.takeChr (d : DecodedGroup) (b : Byte) : DecodedGroup :=
  { d with chrAcc := crcStep d.chrAcc b, chrCnt := d.chrCnt + 1 }

/-- The group's new value and `Advance()` from phase `p`, in one step (42_host_commands.md R193). -/
def withRegion (p : Phase) (d : DecodedGroup) (s : State) : State :=
  { s with decoded := some d, phase := advance p d }

/-- SIZC sel, n (41_bank_extractor.md R173). -/
def execSizc (sel : Region) (n : Byte) (s : State) : Result :=
  unlessError s fun s => .next (respond .ok (sizeCalc sel n) s)

end Sys2Proof.Machine
end

