-- ==== Sys2Proof/Machine/HeaderDecoder.lean ====
section
/-!
DEFINITION. The HeaderDecoder unit (40_header_decoder.md): the pure decode of 16 bytes, the latch of its result, and the
commands GETBIT and MAPC.
-/

namespace Sys2Proof.Machine

open Sys2Proof

/-- `MagicOK(h)`: the first four bytes are `N E S 0x1A`, compared exactly (40_header_decoder.md R122). -/
def magicOK (h : Header) : Bool := h[0] == 0x4E && h[1] == 0x45 && h[2] == 0x53 && h[3] == 0x1A

/-- The source's DecodedHeader, as `DecodeHeader` returns it (40_header_decoder.md R120). -/
structure DecodedHeader where
  magic : Vector Byte 4
  prgBanks16k : Byte
  chrBanks8k : Byte
  flags6 : Byte
  flags7 : Byte
  ramBanks8k : Byte
  flags9 : Byte
  reservedTail : Vector Byte 6
  fields : Word
  mapper : Byte
  named : Bool
deriving DecidableEq, Repr

/-- The fields of a header, at the positions of 30_encoding.md R80. -/
def headerFields (h : Header) : DecodedHeader where
  magic := #v[h[0], h[1], h[2], h[3]]
  prgBanks16k := h[4]
  chrBanks8k := h[5]
  flags6 := h[6]
  flags7 := h[7]
  ramBanks8k := h[8]
  flags9 := h[9]
  reservedTail := #v[h[10], h[11], h[12], h[13], h[14], h[15]]
  fields := unpackFields h[6] h[7] h[9]
  mapper := composeMapper h[6] h[7]
  named := mapperNamed (composeMapper h[6] h[7])

/-- `pack_le(h[0..3])`, the `info` of InvalidMagic (40_header_decoder.md R122, 60_exceptions.md R234). -/
def magicInfo (h : Header) : Word := packLe [h[0], h[1], h[2], h[3]]

/-- `DecodeHeader(h)`: the decoded header, or the `info` of InvalidMagic (40_header_decoder.md R120). -/
def decodeHeader (h : Header) : Except Word DecodedHeader :=
  if magicOK h then .ok (headerFields h) else .error (magicInfo h)

/-- The registers that `Latch` writes from the decoded header (40_header_decoder.md R121). -/
def latchedGroup (d : DecodedHeader) : DecodedGroup where
  magic := packLe d.magic.toList
  prgBanks := d.prgBanks16k.setWidth 32
  chrBanks := d.chrBanks8k.setWidth 32
  flags6 := d.flags6.setWidth 32
  flags7 := d.flags7.setWidth 32
  ramBanks := d.ramBanks8k.setWidth 32
  flags9 := d.flags9.setWidth 32
  tailLo := packLe (d.reservedTail.toList.take 4)
  tailHi := packLe (d.reservedTail.toList.drop 4)
  mapper := d.mapper.setWidth 32 ||| (bitWord d.named <<< 8)
  fields := d.fields
  prgSize := sizeCalc .prg d.prgBanks16k
  chrSize := sizeCalc .chr d.chrBanks8k
  prgCnt := 0
  chrCnt := 0
  prgAcc := crcOnes
  chrAcc := crcOnes

/-- `Latch(h)`, one atomic step: the decoded group, `HDR_VALID`, phase PRG and `Advance()`
(40_header_decoder.md R121). -/
def latch (d : DecodedHeader) (s : State) : State :=
  { withRegion .prg (latchedGroup d) s with hdrValid := true }

/-- GETBIT pos, b (40_header_decoder.md R132). -/
def execGetbit (pos : Int) (b : Byte) (s : State) : Result :=
  unlessError s fun s =>
    match getBit b pos with
    | .error info => .next (raise .invalidBitPosition info s)
    | .ok v => .next (respond .ok (v.setWidth 32) s)

/-- MAPC f6, f7 (40_header_decoder.md R133). -/
def execMapc (f6 f7 : Byte) (s : State) : Result :=
  unlessError s fun s => .next (respond .ok (mapperWord f6 f7) s)

end Sys2Proof.Machine
end

