-- ==== Sys2Proof/Machine/HostCommands.lean ====
section
/-!
DEFINITION. The stream and control commands (42_host_commands.md): PUSH, EOS, RDREG and CLEAR.

The `info` of an IllegalCommand that a legal word raises is the whole command word `w` (60_exceptions.md R234); it is
`encode` of the instruction, the one word that decodes to it (log 11).
-/

namespace Sys2Proof.Machine

open Sys2Proof

/-- `HDR_BUF[HDR_CNT] <- b` and `HDR_CNT <- HDR_CNT + 1` (42_host_commands.md R192). -/
def storeHeaderByte (b : Byte) (s : State) : State :=
  { s with hdrBuf := s.hdrBuf.setIfInBounds s.hdrCnt.toNat b, hdrCnt := s.hdrCnt + 1 }

/-- The decode on the 16th header byte (42_host_commands.md R192). -/
def finishHeader (s : State) : State :=
  match decodeHeader s.hdrBuf with
  | .error info => raise .invalidMagic info s
  | .ok d => respond .ok 0 (latch d s)

/-- `PushHeader(b)`, PUSH in phase HDR (42_host_commands.md R192). With the buffer full there is no byte to write: the
machine stops (log 7). -/
def pushHeader (b : Byte) (s : State) : Result :=
  if s.hdrCnt.toNat < Config.hdrLen then
    if (storeHeaderByte b s).hdrCnt.toNat < Config.hdrLen then .next (respond .ok 0 (storeHeaderByte b s))
    else .next (finishHeader (storeHeaderByte b s))
  else .fault .headerBufferFull

/-- `PushRegion(b)` in phase PRG (42_host_commands.md R193). -/
def pushPrg (b : Byte) (s : State) : Result :=
  match s.decoded with
  | some d => .next (respond .ok 1 (withRegion .prg (d.takePrg b) s))
  | none => .fault .groupHoldsNoValue

/-- `PushRegion(b)` in phase CHR (42_host_commands.md R193). -/
def pushChr (b : Byte) (s : State) : Result :=
  match s.decoded with
  | some d => .next (respond .ok 2 (withRegion .chr (d.takeChr b) s))
  | none => .fault .groupHoldsNoValue

/-- PUSH by phase (42_host_commands.md R191, R194). In phase ERROR the gate has answered already; the arm says the
same. -/
def pushByPhase (b : Byte) (s : State) : Result :=
  match s.phase with
  | .hdr => pushHeader b s
  | .prg => pushPrg b s
  | .chr => pushChr b s
  | .done => .next (respond .ok 3 s)
  | .error => .next (respond .aborted 0 s)

/-- PUSH b (42_host_commands.md R191). -/
def execPush (b : Byte) (s : State) : Result :=
  unlessError s fun s =>
    if s.eosSeen then .next (raise .illegalCommand (encode (.push b)) s) else pushByPhase b s

/-- EOS by phase, `EOS_SEEN` already set (42_host_commands.md R195). In phase ERROR the gate has answered already. -/
def eosByPhase (s : State) : State :=
  match s.phase with
  | .hdr => raise .truncatedInput (s.hdrCnt.setWidth 32) s
  | .prg => respond .ok 0 { s with phase := .done }
  | .chr => respond .ok 0 { s with phase := .done }
  | .done => respond .ok 0 s
  | .error => respond .aborted 0 s

/-- EOS (42_host_commands.md R195). -/
def execEos (s : State) : Result :=
  unlessError s fun s => .next (eosByPhase { s with eosSeen := true })

/-- RDREG idx, in every phase (42_host_commands.md R190, R200, R202). -/
def execRdreg (idx : Byte) (s : State) : Result :=
  match Reg.ofIndex idx with
  | none => .next (raise .illegalCommand (encode (.rdreg idx)) s)
  | some r => .next (readReg r s)

/-- CLEAR, in every phase (42_host_commands.md R205). -/
def execClear (s : State) : Result := .next (respond .ok 0 (clearBlock s))

end Sys2Proof.Machine
end

