-- ==== Sys2Proof/Machine/Dispatch.lean ====
section
/-!
DEFINITION. `perform c` of 42_host_commands.md R190: one arm per command. The ERROR gate stands in the meanings it
applies to (log 10).
-/

namespace Sys2Proof.Machine

open Sys2Proof

def exec (i : Instr) (s : State) : Host.Outcome State Fault Refusal :=
  match i with
  | .push b => Sys2Proof.Machine.execPush b s
  | .eos => Sys2Proof.Machine.execEos s
  | .rdreg idx => Sys2Proof.Machine.execRdreg idx s
  | .getbit pos b => Sys2Proof.Machine.execGetbit pos b s
  | .mapc f6 f7 => Sys2Proof.Machine.execMapc f6 f7 s
  | .sizc sel n => Sys2Proof.Machine.execSizc sel n s
  | .clear => Sys2Proof.Machine.execClear s

end Sys2Proof.Machine
end

