-- ==== Sys2Proof/Machine/Step.lean ====
section
/-!
DEFINITION. One step of the machine: the host's next action, executed whole (42_host_commands.md R190).

The block fetches nothing (20_memory.md R69): the next command is the head of the host's list. With an empty list the
host issues nothing and the block waits (R198, log 3).
-/

namespace Sys2Proof.Machine

open Sys2Proof

/-- `Execute(w)`: decode first, then the command's own meaning (42_host_commands.md R190, 60_exceptions.md R232). -/
def execute (w : Word) (s : State) : Host.Outcome State Fault Refusal :=
  match decode w with
  | .error _ => executeIllegal w s
  | .ok i => exec i s

/-- One step: the host's next action leaves its list and takes effect. -/
def step (s : State) : Host.Outcome State Fault Refusal :=
  match s.issue with
  | [] => .next (idle s)
  | .assertReset :: rest => .next (hardwareReset { s with issue := rest })
  | .command w :: rest => execute w { s with issue := rest }

/-- The state in which the host's next action is to issue the word `w` of `nbits` bits; everything else is as in `s`
(log 13). -/
def State.withFetchWord (s : State) (nbits w : Nat) : State :=
  { s with issue := .command (tableWord nbits w) :: s.issue }

end Sys2Proof.Machine
end

