-- ==== Sys2Proof/Machine/Assembler.lean ====
section
/-!
DEFINITION. The assembler of 30_encoding.md R99 and R100: its forms, their words, the refusal of an operand outside its
range, the pseudo-instructions, and the written line.

What R99 leaves open (spaces, the digits' case, an empty line) is fixed in log 15.
-/

namespace Sys2Proof.Machine

open Sys2Proof

/-- An assembler line, its operands as the numbers written (30_encoding.md R99, R100). -/
inductive AsmLine where
  | push (b : Int)
  | eos
  | rdreg (idx : Int)
  | rdregNamed (r : Reg)
  | getbit (pos b : Int)
  | mapc (f6 f7 : Int)
  | sizc (sel : Region) (n : Int)
  | clear
  | word (w : Int)
  | pushN (n b : Int)
  | pushS (bs : List Int)
  | header (bs : List Int)
  | feed (s : List Byte)
deriving DecidableEq, Repr

/-- A byte operand, refused outside 0 to 255 (30_encoding.md R99). -/
def asmByte (v : Int) : Option Byte := if 0 ≤ v ∧ v ≤ 255 then some (BitVec.ofInt 8 v) else none

/-- Byte operands, refused if one of them is outside 0 to 255. -/
def asmBytes : List Int → Option (List Byte)
  | [] => some []
  | v :: vs => (asmByte v).bind fun b => (asmBytes vs).map (b :: ·)

/-- One PUSH word per byte, in order (30_encoding.md R100). -/
def pushWords (bs : List Byte) : List Word := bs.map fun b => encode (.push b)

/-- The words of a line; none is the assembler's refusal (30_encoding.md R99, R100). PUSHS without an operand is refused
(log 15). -/
def assemble : AsmLine → Option (List Word)
  | .push b => (asmByte b).map fun b => [encode (.push b)]
  | .eos => some [encode .eos]
  | .rdreg idx => (asmByte idx).map fun idx => [encode (.rdreg idx)]
  | .rdregNamed r => some [encode (.rdreg r.index)]
  | .getbit pos b => if posInRange pos then (asmByte b).map fun b => [encode (.getbit pos b)] else none
  | .mapc f6 f7 => (asmByte f6).bind fun f6 => (asmByte f7).map fun f7 => [encode (.mapc f6 f7)]
  | .sizc sel n => (asmByte n).map fun n => [encode (.sizc sel n)]
  | .clear => some [encode .clear]
  | .word w => if 0 ≤ w ∧ w < 4294967296 then some [BitVec.ofInt 32 w] else none
  | .pushN n b => if 0 ≤ n then (asmByte b).map fun b => pushWords (List.replicate n.toNat b) else none
  | .pushS bs => if bs = [] then none else (asmBytes bs).map pushWords
  | .header bs => if bs.length = Config.hdrLen then (asmBytes bs).map pushWords else none
  | .feed s => some (pushWords s)

/-- The name of a register in `RDREG NAME` (30_encoding.md R99, 10_state.md R44). -/
def Reg.name : Reg → List Char
  | .status => "STATUS".toList
  | .errInfo => "ERRINFO".toList
  | .hdrCnt => "HDR_CNT".toList
  | .magic => "MAGIC".toList
  | .prgBanks => "PRG_BANKS".toList
  | .chrBanks => "CHR_BANKS".toList
  | .flags6 => "FLAGS6".toList
  | .flags7 => "FLAGS7".toList
  | .ramBanks => "RAM_BANKS".toList
  | .flags9 => "FLAGS9".toList
  | .tailLo => "TAIL_LO".toList
  | .tailHi => "TAIL_HI".toList
  | .mapper => "MAPPER".toList
  | .fields => "FIELDS".toList
  | .prgSize => "PRG_SIZE".toList
  | .chrSize => "CHR_SIZE".toList
  | .prgCnt => "PRG_CNT".toList
  | .chrCnt => "CHR_CNT".toList
  | .prgCrc => "PRG_CRC".toList
  | .chrCrc => "CHR_CRC".toList

/-- The value of a digit in base 10 or 16. -/
def digitVal (base : Nat) (c : Char) : Option Nat :=
  let n := c.toNat
  let d :=
    if 48 ≤ n ∧ n ≤ 57 then n - 48
    else if 65 ≤ n ∧ n ≤ 70 then n - 55
    else if 97 ≤ n ∧ n ≤ 102 then n - 87
    else 16
  if d < base then some d else none

/-- Digits read most significant first, after the value `acc` of those already read. -/
def readDigits (base : Nat) : Nat → List Char → Option Nat
  | acc, [] => some acc
  | acc, c :: cs => (digitVal base c).bind fun d => readDigits base (acc * base + d) cs

/-- A decimal or `0x` hexadecimal number without a sign (30_encoding.md R99). -/
def readNat : List Char → Option Nat
  | [] => none
  | '0' :: 'x' :: c :: cs => readDigits 16 0 (c :: cs)
  | c :: cs => readDigits 10 0 (c :: cs)

/-- A number, with a minus sign for a negative one, as in `GETBIT -1, 0x80` (40_header_decoder.md R132). -/
def readInt : List Char → Option Int
  | '-' :: cs => (readNat cs).map fun n => -(n : Int)
  | cs => (readNat cs).map fun n => (n : Int)

/-- A space or a tab. -/
def isBlank (c : Char) : Bool := c == ' ' || c == '\t'

/-- The characters without blanks at either end. -/
def trimBlanks (cs : List Char) : List Char := ((cs.dropWhile isBlank).reverse.dropWhile isBlank).reverse

/-- The pieces between commas, each without blanks around it. -/
def splitCommas : List Char → List (List Char)
  | cs => (cs.splitOn ',').map trimBlanks

/-- Every piece as a number. -/
def readInts : List (List Char) → Option (List Int)
  | [] => some []
  | p :: ps => (readInt p).bind fun v => (readInts ps).map (v :: ·)

/-- The register of a name. -/
def Reg.ofName (cs : List Char) : Option Reg := Reg.all.find? (fun r => r.name == cs)

/-- A line with a mnemonic and its operands (30_encoding.md R99, R100). FEED has no written form in the spec (log 15). -/
def readForm (mnemonic : List Char) (ops : List (List Char)) : Option AsmLine :=
  if mnemonic = "PUSH".toList then
    match readInts ops with
    | some [b] => some (.push b)
    | _ => none
  else if mnemonic = "EOS".toList then if ops = [] then some .eos else none
  else if mnemonic = "RDREG".toList then
    match ops with
    | [p] =>
      match Reg.ofName p with
      | some r => some (.rdregNamed r)
      | none => (readInt p).map .rdreg
    | _ => none
  else if mnemonic = "GETBIT".toList then
    match readInts ops with
    | some [pos, b] => some (.getbit pos b)
    | _ => none
  else if mnemonic = "MAPC".toList then
    match readInts ops with
    | some [f6, f7] => some (.mapc f6 f7)
    | _ => none
  else if mnemonic = "SIZC".toList then
    match ops with
    | [sel, n] =>
      if sel = "PRG".toList then (readInt n).map (.sizc .prg)
      else if sel = "CHR".toList then (readInt n).map (.sizc .chr)
      else none
    | _ => none
  else if mnemonic = "CLEAR".toList then if ops = [] then some .clear else none
  else if mnemonic = ".word".toList then
    match readInts ops with
    | some [w] => some (.word w)
    | _ => none
  else if mnemonic = "PUSHN".toList then
    match readInts ops with
    | some [n, b] => some (.pushN n b)
    | _ => none
  else if mnemonic = "PUSHS".toList then (readInts ops).map .pushS
  else if mnemonic = "HEADER".toList then (readInts ops).map .header
  else none

/-- The words of one written line: the comment after `;` is dropped, the mnemonic is the first word, the operands are
separated by commas; a line with no command gives no word (30_encoding.md R99, log 15). -/
def assembleText (line : List Char) : Option (List Word) :=
  let body := trimBlanks (line.takeWhile (· != ';'))
  if body = [] then some []
  else
    let mnemonic := body.takeWhile (fun c => !isBlank c)
    let rest := trimBlanks (body.dropWhile (fun c => !isBlank c))
    (readForm mnemonic (if rest = [] then [] else splitCommas rest)).bind assemble

end Sys2Proof.Machine
end

