-- ==== Sys2Proof/Machine/HostReport.lean ====
section
/-!
DEFINITION. What the host reads from the block: the values of its report (42_host_commands.md R215), and the region
bytes that the responses tag (41_bank_extractor.md R175, 42_host_commands.md R196, R216).

The text of the report and the files of the dump are the host's and out of scope (00_scope.md R3); the values and the
byte sequences are a function of registers and responses, and are modelled.
-/

namespace Sys2Proof.Machine

open Sys2Proof

/-- Report line 6 (40_header_decoder.md R123). -/
inductive Mirroring where
  | horizontal
  | vertical
deriving DecidableEq, Repr

/-- Report line 13 (40_header_decoder.md R126). -/
inductive VideoMode where
  | ntsc
  | pal
deriving DecidableEq, Repr

/-- The values of the report's lines 2 to 15, in the report's order (42_host_commands.md R215). -/
structure Report where
  magic : Word
  prgBanks : Word
  prgKiB : Nat
  chrBanks : Word
  chrKiB : Nat
  mapperId : Byte
  mapperName : Option String
  mirroring : Mirroring
  battery : Bool
  trainer : Bool
  fourScreen : Bool
  vsSystem : Bool
  reserved7 : BitVec 3
  reserved9 : BitVec 7
  tailLo : Word
  tailHi : Word
  ramBanks : Word
  video : VideoMode
  prgCrc : Word
  chrCrc : Word
deriving DecidableEq, Repr

/-- `MAPPER.ID` (10_state.md R39). -/
def DecodedGroup.mapperId (d : DecodedGroup) : Byte := d.mapper.extractLsb' 0 8

/-- `MAPPER.NAMED` (10_state.md R39). -/
def DecodedGroup.mapperIsNamed (d : DecodedGroup) : Bool := d.mapper.getLsbD 8

/-- The name the host shows: `MAPPER_NAME(ID)` if named (42_host_commands.md R215). -/
def DecodedGroup.shownName (d : DecodedGroup) : Option String :=
  if d.mapperIsNamed then Sys2Proof.Machine.mapperName d.mapperId else none

/-- Each line's value from the registers it names (42_host_commands.md R215). -/
def DecodedGroup.report (d : DecodedGroup) : Report where
  magic := d.magic
  prgBanks := d.prgBanks
  prgKiB := d.prgBanks.toNat * 16
  chrBanks := d.chrBanks
  chrKiB := d.chrBanks.toNat * 8
  mapperId := d.mapperId
  mapperName := d.shownName
  mirroring := if d.fields.getLsbD 0 then .vertical else .horizontal
  battery := d.fields.getLsbD 1
  trainer := d.fields.getLsbD 2
  fourScreen := d.fields.getLsbD 3
  vsSystem := d.fields.getLsbD 4
  reserved7 := d.fields.extractLsb' 8 3
  reserved9 := d.fields.extractLsb' 16 7
  tailLo := d.tailLo
  tailHi := d.tailHi
  ramBanks := d.ramBanks
  video := if d.fields.getLsbD 5 then .pal else .ntsc
  prgCrc := d.prgCrc
  chrCrc := d.chrCrc

/-- The host's report, read after `PHASE = DONE` (42_host_commands.md R215). -/
def State.report (s : State) : Option Report :=
  if s.phase = .done then s.decoded.map DecodedGroup.report else none

/-- The region a successful PUSH response tags its byte with (42_host_commands.md R196). -/
inductive Tag where
  | header
  | prg
  | chr
  | discarded
deriving DecidableEq, Repr

/-- The response value of a tag (42_host_commands.md R196). -/
def Tag.val : Tag → Word
  | .header => 0
  | .prg => 1
  | .chr => 2
  | .discarded => 3

/-- The bytes whose PUSH responses carry the tag, in issue order: the region bytes of an ExtractionResult and the
contents of a dump artifact (41_bank_extractor.md R175, 42_host_commands.md R216). -/
def taggedBytes (t : Tag) : List (Byte × Response) → List Byte
  | [] => []
  | (b, r) :: rest => if r = ⟨.ok, t.val⟩ then b :: taggedBytes t rest else taggedBytes t rest

end Sys2Proof.Machine
end

