-- ==== Sys2Proof/Safety.lean ====
section
/-!
DEFINITION. What a safe run of the block is, in the terms the statements use: the registers alone, the end of a run
(42_host_commands.md R198), the invariant every step keeps, and the stream scripts of the stream law (R197).
-/

namespace Sys2Proof.Machine

open Sys2Proof

/-- The block's registers alone: the host's list and the response port are put aside. Two states with equal `regs` agree
in every piece of state the spec gives the block. -/
def State.regs (s : State) : State := { s with issue := [], resp := none }

/-- What `raise E(info)` does, seen from outside (60_exceptions.md R233): phase ERROR, the code as the answer, the first
error and its information latched and a later one not, and nothing else of the state changed. -/
structure Raised (e : ErrorCode) (info : Word) (s t : State) : Prop where
  phase : t.phase = .error
  answer : t.resp = some ⟨.error e, 0⟩
  first : s.err = none → t.err = some e ∧ t.errInfo = info
  later : s.err ≠ none → t.err = s.err ∧ t.errInfo = s.errInfo
  frame : t = { s with phase := t.phase, resp := t.resp, err := t.err, errInfo := t.errInfo }

/-- The values of 10_state.md R47, which leaves `HDR_BUF` unspecified. -/
structure AtReset (t : State) : Prop where
  phase : t.phase = .hdr
  valid : t.hdrValid = false
  eos : t.eosSeen = false
  err : t.err = none
  info : t.errInfo = 0
  cnt : t.hdrCnt = 0
  noValue : t.decoded = none

/-- How a run stands (42_host_commands.md R198). -/
inductive RunStatus where
  | succeeded
  | failed
  | waiting
deriving DecidableEq, Repr

/-- The extraction has succeeded in DONE and failed in ERROR; in any other phase the block waits for the host
(42_host_commands.md R198). -/
def State.runStatus (s : State) : RunStatus :=
  match s.phase with
  | .done => .succeeded
  | .error => .failed
  | .hdr => .waiting
  | .prg => .waiting
  | .chr => .waiting

/-- The place of a phase in the order HDR, PRG, CHR, DONE, with ERROR after them all (10_state.md R22,
42_host_commands.md R210). -/
def Phase.rank : Phase → Nat
  | .hdr => 0
  | .prg => 1
  | .chr => 2
  | .done => 3
  | .error => 4

/-- The stream bytes taken into the header or a region: `HDR_CNT + PRG_CNT + CHR_CNT` (10_state.md R21); before the
latch the last two hold no value, and no region byte has been taken. -/
def State.streamOffset (s : State) : Nat :=
  match s.decoded with
  | none => s.hdrCnt.toNat
  | some d => s.hdrCnt.toNat + d.prgCnt.toNat + d.chrCnt.toNat

/-- The host's action ends the invocation: CLEAR or reset (00_scope.md R4, 60_exceptions.md R235). -/
def HostAct.endsInvocation : HostAct → Bool
  | .assertReset => true
  | .command w =>
    match decode w with
    | .ok .clear => true
    | _ => false

/-- The decoded fields of a group, which are never written after the latch (10_state.md R30): the group with its
counters and accumulators put aside. -/
def DecodedGroup.headerPart (d : DecodedGroup) : DecodedGroup :=
  { d with prgCnt := 0, chrCnt := 0, prgAcc := 0, chrAcc := 0 }

/-- The counters are within their sizes, and CHR bytes come after a complete PRG region (10_state.md R42). -/
structure DecodedGroup.CountsInv (d : DecodedGroup) : Prop where
  prg_le : d.prgCnt.toNat ≤ d.prgSize.toNat
  chr_le : d.chrCnt.toNat ≤ d.chrSize.toNat
  chr_after_prg : 0 < d.chrCnt.toNat → d.prgCnt = d.prgSize

/-- What the phase says of a decoded group (41_bank_extractor.md R166): in PRG and CHR the phase's region is short, and
the stream has not ended; in DONE the stream has ended or both regions are complete. -/
def phaseFits (s : State) (d : DecodedGroup) : Prop :=
  match s.phase with
  | .hdr => False
  | .prg => d.prgCnt.toNat < d.prgSize.toNat ∧ s.eosSeen = false
  | .chr => d.prgCnt = d.prgSize ∧ d.chrCnt.toNat < d.chrSize.toNat ∧ s.eosSeen = false
  | .done => s.eosSeen = true ∨ (d.prgCnt = d.prgSize ∧ d.chrCnt = d.chrSize)
  | .error => True

/-- What holds of a decoded group: it is the latch of the header in `HDR_BUF` with the right magic, its counters are in
order, and the phase fits it (10_state.md R30, R31, R42). -/
structure GroupInv (s : State) (d : DecodedGroup) : Prop where
  full : s.hdrCnt = 16
  magic : magicOK s.hdrBuf = true
  latched : d.headerPart = (latchedGroup (headerFields s.hdrBuf)).headerPart
  counts : d.CountsInv
  phase : phaseFits s d

/-- What `ERRINFO` holds, per latched code, and what else the code says of the state (60_exceptions.md R231, R234). -/
def errInfoFits (s : State) : Prop :=
  match s.err with
  | none => s.errInfo = 0
  | some .truncatedInput =>
    s.errInfo = s.hdrCnt.setWidth 32 ∧ s.hdrCnt.toNat < 16 ∧ s.eosSeen = true ∧ s.decoded = none
  | some .invalidMagic =>
    s.errInfo = magicInfo s.hdrBuf ∧ s.hdrCnt = 16 ∧ magicOK s.hdrBuf = false ∧ s.decoded = none
  | some .invalidBitPosition => ∃ pos : BitVec 8, (pos.toInt < 0 ∨ 7 < pos.toInt) ∧ s.errInfo = pos.signExtend 32
  | some .illegalCommand => True
  | some .notDecoded => ∃ r : Reg, r.group = .decoded ∧ s.errInfo = r.index.setWidth 32

/-- The invariant of the block: it holds at reset, every step keeps it, and it rules out the states in which the model
stops. -/
structure BlockInv (s : State) : Prop where
  /-- `HDR_VALID` is 1 exactly while the decoded group holds values (10_state.md R27). -/
  valid : s.hdrValid = s.decoded.isSome
  /-- `HDR_CNT` is 0 to 16 (10_state.md R26). -/
  cnt_le : s.hdrCnt.toNat ≤ 16
  /-- Phase ERROR is the phase of a latched error (60_exceptions.md R233). -/
  error_iff : s.phase = .error ↔ s.err.isSome = true
  /-- In phase HDR the header is short and the stream has not ended (42_host_commands.md R192, R195). -/
  hdr : s.phase = .hdr → s.hdrCnt.toNat < 16 ∧ s.eosSeen = false ∧ s.decoded = none
  /-- Without a decoded header the phase is HDR or ERROR (42_host_commands.md R192). -/
  undecoded : s.decoded = none → s.phase = .hdr ∨ s.phase = .error
  /-- The decoded group, once it holds values. -/
  group : ∀ d, s.decoded = some d → GroupInv s d
  /-- `ERRINFO` fits `ERR` (60_exceptions.md R234). -/
  info : errInfoFits s

/-- Two states that differ at most in the header-buffer bytes not yet received (10_state.md R26). -/
def SameButUnreceived (s t : State) : Prop :=
  t = { s with hdrBuf := t.hdrBuf } ∧ ∀ (i : Nat) (h : i < 16), i < s.hdrCnt.toNat → s.hdrBuf[i] = t.hdrBuf[i]

/-- The host's action that presents a stream byte. -/
def pushAct (b : Byte) : HostAct := .command (encode (.push b))

/-- The host's action that ends the stream. -/
def eosAct : HostAct := .command (encode .eos)

/-- The commands that the stream law lets a host interleave, because they change no state: legal RDREGs of the always
group, and GETBIT, MAPC and SIZC with legal operands (42_host_commands.md R197). -/
def HostAct.changesNothing : HostAct → Bool
  | .assertReset => false
  | .command w =>
    match decode w with
    | .ok (.rdreg idx) => (Reg.ofIndex idx).any (fun r => r.group == .always)
    | .ok (.getbit pos _) => decide (0 ≤ pos ∧ pos ≤ 7)
    | .ok (.mapc _ _) => true
    | .ok (.sizc _ _) => true
    | _ => false

/-- A host that pushes the bytes in order and then issues EOS, with commands that change nothing in between and after
(42_host_commands.md R197). -/
inductive StreamScript : List Byte → List HostAct → Prop where
  | eos {rest : List HostAct} : (∀ a ∈ rest, a.changesNothing = true) → StreamScript [] (eosAct :: rest)
  | push (b : Byte) {bs : List Byte} {acts : List HostAct} :
      StreamScript bs acts → StreamScript (b :: bs) (pushAct b :: acts)
  | quiet {a : HostAct} {bs : List Byte} {acts : List HostAct} :
      a.changesNothing = true → StreamScript bs acts → StreamScript bs (a :: acts)

/-- The actions of the next `n` steps with what each was answered. -/
def transcript : Nat → State → List (HostAct × Option Response)
  | 0, _ => []
  | n + 1, s =>
    match s.issue, step s with
    | a :: _, .next t => (a, t.resp) :: transcript n t
    | [], .next t => transcript n t
    | _, _ => []

/-- The byte an action presents, if it is a PUSH. -/
def HostAct.pushedByte : HostAct → Option Byte
  | .assertReset => none
  | .command w =>
    match decode w with
    | .ok (.push b) => some b
    | _ => none

/-- The bytes pushed, each with the response to its PUSH, in issue order (42_host_commands.md R196). -/
def pushResponses : List (HostAct × Option Response) → List (Byte × Response)
  | [] => []
  | (a, r) :: rest =>
    match a.pushedByte, r with
    | some b, some r => (b, r) :: pushResponses rest
    | _, _ => pushResponses rest

/-- The responses to EOS. -/
def eosResponses : List (HostAct × Option Response) → List Response
  | [] => []
  | (a, r) :: rest => if a = eosAct then r.toList ++ eosResponses rest else eosResponses rest

/-- The first 16 bytes of a stream, as the header buffer holds them. -/
def headerOf (bs : List Byte) : Header := Vector.ofFn fun i => bs.getD i.val 0

/-- The block's registers at the end of a stream with a good header: the latched group with the counts and the
accumulators of the region bytes, in phase DONE after EOS (42_host_commands.md R197, case 3). `P` and `C` are the region
sizes of the header. -/
structure ExtractedAs (bs : List Byte) (t : State) (d : DecodedGroup) : Prop where
  phase : t.phase = .done
  valid : t.hdrValid = true
  eos : t.eosSeen = true
  noErr : t.err = none
  noInfo : t.errInfo = 0
  cnt : t.hdrCnt = 16
  group : t.decoded = some d
  header : d.headerPart = (latchedGroup (headerFields (headerOf bs))).headerPart
  prgCnt : d.prgCnt.toNat = min d.prgSize.toNat (bs.length - 16)
  chrCnt : d.chrCnt.toNat = min d.chrSize.toNat (bs.length - 16 - d.prgSize.toNat)
  prgCrc : d.prgCrc = crc32 ((bs.drop 16).take d.prgCnt.toNat)
  chrCrc : d.chrCrc = crc32 ((bs.drop (16 + d.prgSize.toNat)).take d.chrCnt.toNat)

/-- The region tags of a whole stream (42_host_commands.md R196, R197): with sizes `P` and `C`, the first 16 bytes are
header bytes, the next `P` are PRG bytes, the next `C` are CHR bytes, and the rest is discarded. -/
def tagsOf (P C : Nat) (bs : List Byte) : List (Byte × Response) :=
  ((bs.take 16).map fun b => (b, ⟨.ok, Tag.header.val⟩))
    ++ (((bs.drop 16).take P).map fun b => (b, ⟨.ok, Tag.prg.val⟩))
    ++ (((bs.drop (16 + P)).take C).map fun b => (b, ⟨.ok, Tag.chr.val⟩))
    ++ ((bs.drop (16 + P + C)).map fun b => (b, ⟨.ok, Tag.discarded.val⟩))

end Sys2Proof.Machine
end

