-- ==== Sys2Proof/Certificates/Slice0/Obligations.lean ====
section
/-!
DEFINITION. The statements for the provers. Each docstring names the rule of spec/ it formalises. A statement that rests
on a choice of the model says so and names the log entry.
-/

open Sys2Proof Sys2Proof.Machine

/-! ### Encoding -/

/-- Words written out from 30_encoding.md R91 to R93 decode to the commands they stand for; two malformed words are
rejected, each under its own name (R94, R95). -/
def Obligations.KnownWordsDecode : Prop :=
  decode 0x1000004E = .ok (.push 0x4E)
    ∧ decode 0x20000000 = .ok .eos
    ∧ decode 0x30000020 = .ok (.rdreg 0x20)
    ∧ decode 0x4000FF80 = .ok (.getbit (-1) 0x80)
    ∧ decode 0x50004050 = .ok (.mapc 0x50 0x40)
    ∧ decode 0x600001FF = .ok (.sizc .chr 0xFF)
    ∧ decode 0xF0000000 = .ok .clear
    ∧ decode 0x10000100 = .error .reservedBits
    ∧ decode 0x00000000 = .error .reservedOpcode

/-- Every well-formed instruction is what its word decodes to, with every operand (30_encoding.md R92, R97, R99). -/
def Obligations.DecodeOfEncodeIsTheInstruction : Prop :=
  ∀ i : Instr, i.wf = true → decode (encode i) = .ok i

/-- Every word that decodes is the one word of a well-formed instruction (30_encoding.md R92, R97). -/
def Obligations.EncodeOfDecodeIsTheWord : Prop :=
  ∀ (w : Word) (i : Instr), decode w = .ok i → i.wf = true ∧ encode i = w

/-- The opcode map of 30_encoding.md R93: the match and mask of each row select exactly the words that decode to its
mnemonic, at most one row selects a word, and a word that none selects is illegal. -/
def Obligations.DecodeFollowsTheOpcodeMap : Prop :=
  ∀ w : Word,
    (w &&& 0xFFFFFF00 = 0x10000000 ↔ ∃ b, decode w = .ok (.push b))
      ∧ (w &&& 0xFFFFFFFF = 0x20000000 ↔ decode w = .ok .eos)
      ∧ (w &&& 0xFFFFFF00 = 0x30000000 ↔ ∃ idx, decode w = .ok (.rdreg idx))
      ∧ (w &&& 0xFFFF0000 = 0x40000000 ↔ ∃ pos b, decode w = .ok (.getbit pos b))
      ∧ (w &&& 0xFFFF0000 = 0x50000000 ↔ ∃ f6 f7, decode w = .ok (.mapc f6 f7))
      ∧ (w &&& 0xFFFFFE00 = 0x60000000 ↔ ∃ sel n, decode w = .ok (.sizc sel n))
      ∧ (w &&& 0xFFFFFFFF = 0xF0000000 ↔ decode w = .ok .clear)
      ∧ (∀ r₁ ∈ opcodeTable, ∀ r₂ ∈ opcodeTable, r₁.selects w = true → r₂.selects w = true → r₁ = r₂)
      ∧ ((∀ r ∈ opcodeTable, r.selects w = false) ↔ ∃ e, decode w = .error e)

/-- A word with a reserved opcode, or with a defined opcode and a nonzero reserved bit, raises IllegalCommand with the
word, whatever the state (30_encoding.md R94, R95). -/
def Obligations.ReservedWordRaisesIllegalCommand : Prop :=
  ∀ (s : State) (w : Word) (rest : List HostAct), s.issue = .command w :: rest →
    ((w.extractLsb' 28 4 = 0x0 ∨ (7 ≤ (w.extractLsb' 28 4).toNat ∧ (w.extractLsb' 28 4).toNat ≤ 14))
      ∨ (w.extractLsb' 28 4 = 0x1 ∧ w.extractLsb' 8 20 ≠ 0)
      ∨ (w.extractLsb' 28 4 = 0x2 ∧ w.extractLsb' 0 28 ≠ 0)
      ∨ (w.extractLsb' 28 4 = 0x3 ∧ w.extractLsb' 8 20 ≠ 0)
      ∨ (w.extractLsb' 28 4 = 0x4 ∧ w.extractLsb' 16 12 ≠ 0)
      ∨ (w.extractLsb' 28 4 = 0x5 ∧ w.extractLsb' 16 12 ≠ 0)
      ∨ (w.extractLsb' 28 4 = 0x6 ∧ w.extractLsb' 9 19 ≠ 0)
      ∨ (w.extractLsb' 28 4 = 0xF ∧ w.extractLsb' 0 28 ≠ 0)) →
    ∃ t, step s = .next t ∧ Raised .illegalCommand w { s with issue := rest } t

/-- The codes of phases, of latched errors and of statuses (10_state.md R22, 60_exceptions.md R231). -/
def Obligations.CodesAreAsListed : Prop :=
  (Phase.hdr.code = 0 ∧ Phase.prg.code = 1 ∧ Phase.chr.code = 2 ∧ Phase.done.code = 3 ∧ Phase.error.code = 4)
    ∧ Status.ok.code = 0
    ∧ (Status.error .truncatedInput).code = 1
    ∧ (Status.error .invalidMagic).code = 2
    ∧ (Status.error .invalidBitPosition).code = 3
    ∧ (Status.error .illegalCommand).code = 4
    ∧ (Status.error .notDecoded).code = 5
    ∧ Status.aborted.code = 6
    ∧ errCode none = 0
    ∧ ∀ e : ErrorCode, errCode (some e) = (Status.error e).code

/-- The 36-bit response word: `st` in bits 35:32 and `val` in bits 31:0 (30_encoding.md R98). -/
def Obligations.ResponseWordHoldsStatusAboveValue : Prop :=
  ∀ r : Response, r.pack.extractLsb' 32 4 = r.st.code ∧ r.pack.extractLsb' 0 32 = r.val

/-! ### The step and the dispatch -/

/-- When the host's next action is a word that decodes to a well-formed instruction, the step takes the action off the
host's list and is `exec` of the instruction (42_host_commands.md R190; the list is the model's, log 1). -/
def Obligations.StepRunsTheDecodedCommand : Prop :=
  ∀ (s : State) (w : Word) (rest : List HostAct) (i : Instr), s.issue = .command w :: rest → i.wf = true →
    decode w = .ok i → step s = exec i { s with issue := rest }

/-- The dispatch of 42_host_commands.md R190: an illegal word raises IllegalCommand with the word; a legal command other
than RDREG and CLEAR in phase ERROR answers Aborted and changes no state; any other is performed. -/
def Obligations.DispatchDecodesThenGatesThenPerforms : Prop :=
  ∀ (s : State) (w : Word) (rest : List HostAct), s.issue = .command w :: rest →
    (∀ e, decode w = .error e → ∃ t, step s = .next t ∧ Raised .illegalCommand w { s with issue := rest } t)
      ∧ (∀ i, decode w = .ok i → s.phase = .error → (∀ idx, i ≠ .rdreg idx) → i ≠ .clear →
          step s = .next { s with issue := rest, resp := some ⟨.aborted, 0⟩ })
      ∧ (∀ i, decode w = .ok i → (s.phase ≠ .error ∨ (∃ idx, i = .rdreg idx) ∨ i = .clear) →
          step s = exec i { s with issue := rest })

/-- While the host issues nothing, the block holds its state (60_exceptions.md R240, 42_host_commands.md R198). The empty
list and the cleared port are the model's (logs 1 to 3). -/
def Obligations.IdleBlockHoldsItsState : Prop :=
  ∀ s : State, s.issue = [] → step s = .next { s with resp := none }

/-- Every command is answered by exactly one response, whose value is 0 unless its status is OK (30_encoding.md R98,
60_exceptions.md R230). The two premises shut out the states of logs 7 and 8, which no run reaches; the first clause holds
there too, of a step that answers a next state. That the action leaves the list and that the response stands on the port
are the model's (logs 1 and 2). -/
def Obligations.EveryCommandIsAnswered : Prop :=
  ∀ (s : State) (w : Word) (rest : List HostAct), s.issue = .command w :: rest →
    (∀ t, step s = .next t → t.issue = rest ∧ ∃ r, t.resp = some r ∧ (r.st ≠ .ok → r.val = 0))
      ∧ ((s.phase = .hdr → s.hdrCnt.toNat < 16) → (s.phase = .prg ∨ s.phase = .chr → s.decoded.isSome = true) →
        ∃ t r, step s = .next t ∧ t.issue = rest ∧ t.resp = some r ∧ (r.st ≠ .ok → r.val = 0))

/-- Reset, the reset input and CLEAR give every piece of state the value of 10_state.md R47, from any state, and then a
read of any register that holds no value is NotDecoded. -/
def Obligations.ResetAndClearGiveTheResetValues : Prop :=
  AtReset State.reset
    ∧ (∀ s : State, ∃ t, exec .clear s = .next t ∧ AtReset t)
    ∧ (∀ (s : State) (rest : List HostAct), s.issue = .assertReset :: rest →
        ∃ t, step s = .next t ∧ AtReset t)
    ∧ (∀ (t : State) (r : Reg), AtReset t → r.group = .decoded →
        ∃ u, exec (.rdreg r.index) t = .next u ∧ Raised .notDecoded (r.index.setWidth 32) t u)

/-- CLEAR acts in every phase, answers (0, 0) and leaves the state of reset, so that nothing of the old invocation
survives it, and the reset input has the same effect (42_host_commands.md R205, 70_reset_and_hazards.md R260, R262). That
`HDR_BUF` is all zero afterwards is the model's choice (log 5); that the host's list stays, and that the reset input is an
action of that list which answers nothing, are the model's (logs 1, 2 and 6). -/
def Obligations.ClearGivesTheResetState : Prop :=
  (∀ s : State, exec .clear s = .next { State.reset with issue := s.issue, resp := some ⟨.ok, 0⟩ })
    ∧ ∀ (s : State) (rest : List HostAct), s.issue = .assertReset :: rest →
      step s = .next { State.reset with issue := rest }

/-! ### HeaderDecoder: GETBIT, MAPC, the flag word -/

/-- GETBIT outside phase ERROR: at a position from 0 to 7 it answers that bit of the byte as 0 or 1 and changes no
register; at any other it raises InvalidBitPosition with the position as 32-bit two's complement
(40_header_decoder.md R131, R132). -/
def Obligations.GetbitAnswersTheBitOrRaises : Prop :=
  ∀ (pos : Int) (b : Byte) (s : State), s.phase ≠ .error →
    ((0 ≤ pos ∧ pos ≤ 7) →
        exec (.getbit pos b) s = .next { s with resp := some ⟨.ok, if b.getLsbD pos.toNat then 1 else 0⟩ })
      ∧ ((pos < 0 ∨ 7 < pos) →
        ∃ t, exec (.getbit pos b) s = .next t ∧ Raised .invalidBitPosition (BitVec.ofInt 32 pos) s t)

/-- MAPC outside phase ERROR answers the mapper id (bits 3:0 are flags6[7:4], bits 7:4 are flags7[7:4]) with bit 8 set
exactly when the id is 0 to 10 and no bit above it, and changes no register (40_header_decoder.md R128, R129, R133). -/
def Obligations.MapcAnswersTheComposedId : Prop :=
  ∀ (f6 f7 : Byte) (s : State), s.phase ≠ .error →
    ∃ v : Word, exec (.mapc f6 f7) s = .next { s with resp := some ⟨.ok, v⟩ }
      ∧ v.extractLsb' 0 4 = f6.extractLsb' 4 4
      ∧ v.extractLsb' 4 4 = f7.extractLsb' 4 4
      ∧ (v.getLsbD 8 = true ↔ (v.extractLsb' 0 8).toNat ≤ 10)
      ∧ v.extractLsb' 9 23 = 0

/-- The `FIELDS` word, field by field (40_header_decoder.md R127, 10_state.md R40). -/
def Obligations.FieldsWordHoldsEveryFlag : Prop :=
  ∀ f6 f7 f9 : Byte,
    (unpackFields f6 f7 f9).getLsbD 0 = f6.getLsbD 0
      ∧ (unpackFields f6 f7 f9).getLsbD 1 = f6.getLsbD 1
      ∧ (unpackFields f6 f7 f9).getLsbD 2 = f6.getLsbD 2
      ∧ (unpackFields f6 f7 f9).getLsbD 3 = f6.getLsbD 3
      ∧ (unpackFields f6 f7 f9).getLsbD 4 = f7.getLsbD 0
      ∧ (unpackFields f6 f7 f9).getLsbD 5 = f9.getLsbD 0
      ∧ (unpackFields f6 f7 f9).extractLsb' 6 2 = 0
      ∧ (unpackFields f6 f7 f9).extractLsb' 8 3 = f7.extractLsb' 1 3
      ∧ (unpackFields f6 f7 f9).extractLsb' 11 5 = 0
      ∧ (unpackFields f6 f7 f9).extractLsb' 16 7 = f9.extractLsb' 1 7
      ∧ (unpackFields f6 f7 f9).extractLsb' 23 9 = 0

/-- The name table: NROM and MMC1 for ids 0 and 1, the open parameter for ids 2 to 10, no name above
(40_header_decoder.md R130). It holds for every value of the open parameter. -/
def Obligations.MapperNamesFollowTheTable : Prop :=
  mapperName 0 = some "NROM"
    ∧ mapperName 1 = some "MMC1"
    ∧ (∀ id : Byte, 2 ≤ id.toNat → id.toNat ≤ 10 → mapperName id = some (Config.openMapperName id.toNat))
    ∧ (∀ id : Byte, 10 < id.toNat → mapperName id = none)

/-! ### BankExtractor: SIZC and the CRC engine -/

/-- SIZC outside phase ERROR answers banks × 16384 for PRG and banks × 8192 for CHR, exactly, and changes no register;
the latch gives `PRG_SIZE` and `CHR_SIZE` the same products (41_bank_extractor.md R160 to R162, R173). -/
def Obligations.SizesAreBanksTimesTheUnit : Prop :=
  (∀ (n : Byte) (s : State), s.phase ≠ .error →
      ∃ p c : Word, exec (.sizc .prg n) s = .next { s with resp := some ⟨.ok, p⟩ } ∧ p.toNat = n.toNat * 16384
        ∧ exec (.sizc .chr n) s = .next { s with resp := some ⟨.ok, c⟩ } ∧ c.toNat = n.toNat * 8192)
    ∧ (∀ d : DecodedHeader, (latchedGroup d).prgSize.toNat = d.prgBanks16k.toNat * 16384
        ∧ (latchedGroup d).chrSize.toNat = d.chrBanks8k.toNat * 8192)

/-- Known values of the engine: the empty sequence, one step, and the table entries (41_bank_extractor.md R171, R177;
the parameters are the spec's from general knowledge, log 16). -/
def Obligations.CrcEngineHasTheKnownValues : Prop :=
  crc32 [] = 0
    ∧ crcStep 0xFFFFFFFF 0x00 = 0x2DFD1072
    ∧ crcStep 0xFFFFFFFF 0x31 = 0x7C231048
    ∧ crcTable 0 = 0
    ∧ crcTable 1 = 0x77073096
    ∧ crcTable 128 = 0xEDB88320
    ∧ crcTable 255 = 0x2D02EF8D

/-- The table-driven step gives the value of the bitwise step, for every accumulator and byte
(41_bank_extractor.md R177). -/
def Obligations.TableStepEqualsBitwiseStep : Prop :=
  ∀ (acc : Word) (b : Byte), crcStep acc b = (acc >>> 8) ^^^ crcTable ((acc ^^^ b.setWidth 32).setWidth 8)

/-- A region byte extends its own region's checksum and leaves the other's alone: if the CRC view is `Crc32` of the bytes
taken so far, then after the PUSH it is `Crc32` of those and the new byte (41_bank_extractor.md R169, R170). -/
def Obligations.RegionPushExtendsTheChecksum : Prop :=
  ∀ (s : State) (d : DecodedGroup) (b : Byte) (taken : List Byte), s.eosSeen = false → s.decoded = some d →
    (s.phase = .prg → d.prgCrc = crc32 taken →
        ∃ t d', exec (.push b) s = .next t ∧ t.decoded = some d' ∧ d'.prgCrc = crc32 (taken ++ [b])
          ∧ d'.chrCrc = d.chrCrc)
      ∧ (s.phase = .chr → d.chrCrc = crc32 taken →
        ∃ t d', exec (.push b) s = .next t ∧ t.decoded = some d' ∧ d'.chrCrc = crc32 (taken ++ [b])
          ∧ d'.prgCrc = d.prgCrc)

/-! ### RDREG -/

/-- RDREG of each register of 10_state.md R44 that may be read answers its value and changes no register, in every phase:
the always group in every state, the decoded group while `HDR_VALID` is 1 and the group holds values
(42_host_commands.md R200). -/
def Obligations.RdregAnswersTheRegister : Prop :=
  ∀ s : State,
    (exec (.rdreg 0x00) s = .next { s with resp := some ⟨.ok, s.statusWord⟩ }
      ∧ exec (.rdreg 0x01) s = .next { s with resp := some ⟨.ok, s.errInfo⟩ }
      ∧ exec (.rdreg 0x02) s = .next { s with resp := some ⟨.ok, s.hdrCnt.setWidth 32⟩ })
    ∧ ∀ d, s.hdrValid = true → s.decoded = some d →
      exec (.rdreg 0x10) s = .next { s with resp := some ⟨.ok, d.magic⟩ }
        ∧ exec (.rdreg 0x11) s = .next { s with resp := some ⟨.ok, d.prgBanks⟩ }
        ∧ exec (.rdreg 0x12) s = .next { s with resp := some ⟨.ok, d.chrBanks⟩ }
        ∧ exec (.rdreg 0x13) s = .next { s with resp := some ⟨.ok, d.flags6⟩ }
        ∧ exec (.rdreg 0x14) s = .next { s with resp := some ⟨.ok, d.flags7⟩ }
        ∧ exec (.rdreg 0x15) s = .next { s with resp := some ⟨.ok, d.ramBanks⟩ }
        ∧ exec (.rdreg 0x16) s = .next { s with resp := some ⟨.ok, d.flags9⟩ }
        ∧ exec (.rdreg 0x17) s = .next { s with resp := some ⟨.ok, d.tailLo⟩ }
        ∧ exec (.rdreg 0x18) s = .next { s with resp := some ⟨.ok, d.tailHi⟩ }
        ∧ exec (.rdreg 0x19) s = .next { s with resp := some ⟨.ok, d.mapper⟩ }
        ∧ exec (.rdreg 0x1A) s = .next { s with resp := some ⟨.ok, d.fields⟩ }
        ∧ exec (.rdreg 0x20) s = .next { s with resp := some ⟨.ok, d.prgSize⟩ }
        ∧ exec (.rdreg 0x21) s = .next { s with resp := some ⟨.ok, d.chrSize⟩ }
        ∧ exec (.rdreg 0x22) s = .next { s with resp := some ⟨.ok, d.prgCnt⟩ }
        ∧ exec (.rdreg 0x23) s = .next { s with resp := some ⟨.ok, d.chrCnt⟩ }
        ∧ exec (.rdreg 0x24) s = .next { s with resp := some ⟨.ok, d.prgAcc ^^^ 0xFFFFFFFF⟩ }
        ∧ exec (.rdreg 0x25) s = .next { s with resp := some ⟨.ok, d.chrAcc ^^^ 0xFFFFFFFF⟩ }

/-- The `STATUS` word that RDREG 0x00 answers, field by field (10_state.md R23). -/
def Obligations.StatusReadsItsFields : Prop :=
  ∀ s : State, ∃ v : Word, exec (.rdreg 0x00) s = .next { s with resp := some ⟨.ok, v⟩ }
    ∧ v.extractLsb' 0 3 = s.phase.code
    ∧ v.getLsbD 3 = s.hdrValid
    ∧ v.getLsbD 4 = s.eosSeen
    ∧ v.extractLsb' 5 3 = 0
    ∧ v.extractLsb' 8 4 = errCode s.err
    ∧ v.extractLsb' 12 20 = 0

/-- RDREG of an index outside 0x00 to 0x02, 0x10 to 0x1A and 0x20 to 0x25 raises IllegalCommand with the command word;
an index inside never does (42_host_commands.md R202). -/
def Obligations.RdregOfUnmappedIndexIsIllegal : Prop :=
  ∀ (idx : Byte) (s : State),
    (¬ (idx.toNat ≤ 0x02 ∨ (0x10 ≤ idx.toNat ∧ idx.toNat ≤ 0x1A) ∨ (0x20 ≤ idx.toNat ∧ idx.toNat ≤ 0x25)) →
        ∃ t, exec (.rdreg idx) s = .next t ∧ Raised .illegalCommand (0x30000000 ||| idx.setWidth 32) s t)
      ∧ ((idx.toNat ≤ 0x02 ∨ (0x10 ≤ idx.toNat ∧ idx.toNat ≤ 0x1A) ∨ (0x20 ≤ idx.toNat ∧ idx.toNat ≤ 0x25)) →
        ∃ t r, exec (.rdreg idx) s = .next t ∧ t.resp = some r ∧ r.st ≠ .error .illegalCommand)

/-- A read of a decoded-group register while `HDR_VALID = 0` raises NotDecoded with the index, never a number
(42_host_commands.md R201). -/
def Obligations.RdregBeforeDecodeRaisesNotDecoded : Prop :=
  ∀ (idx : Byte) (s : State), s.hdrValid = false →
    ((0x10 ≤ idx.toNat ∧ idx.toNat ≤ 0x1A) ∨ (0x20 ≤ idx.toNat ∧ idx.toNat ≤ 0x25)) →
    ∃ t, exec (.rdreg idx) s = .next t ∧ Raised .notDecoded (idx.setWidth 32) s t

/-- In a state of the invariant, the bits of a register above its used width read 0 (10_state.md R44). -/
def Obligations.RegistersFitTheirUsedWidth : Prop :=
  ∀ (s t : State) (r : Reg) (v : Word), BlockInv s → exec (.rdreg r.index) s = .next t → t.resp = some ⟨.ok, v⟩ →
    v.toNat < 2 ^ r.widthUsed

/-! ### EOS -/

/-- EOS, by phase, and its one word (42_host_commands.md R195): TruncatedInput with the bytes received in HDR, `EOS_SEEN`
standing; DONE from PRG and CHR; idempotent in DONE; Aborted in ERROR. -/
def Obligations.EosEndsTheStreamByPhase : Prop :=
  (∀ w : Word, decode w = .ok .eos ↔ w = 0x20000000)
    ∧ ∀ s : State,
      (s.phase = .hdr → ∃ t, exec .eos s = .next t
          ∧ Raised .truncatedInput (s.hdrCnt.setWidth 32) { s with eosSeen := true } t)
        ∧ ((s.phase = .prg ∨ s.phase = .chr) →
            exec .eos s = .next { s with eosSeen := true, phase := .done, resp := some ⟨.ok, 0⟩ })
        ∧ (s.phase = .done → exec .eos s = .next { s with eosSeen := true, resp := some ⟨.ok, 0⟩ })
        ∧ (s.phase = .error → exec .eos s = .next { s with resp := some ⟨.aborted, 0⟩ })

/-! ### PUSH -/

/-- PUSH of one of the first 15 header bytes stores it at `HDR_BUF[HDR_CNT]`, counts it, answers (0, 0) and changes
nothing else (42_host_commands.md R192). -/
def Obligations.PushStoresAHeaderByte : Prop :=
  ∀ (b : Byte) (s : State), s.phase = .hdr → s.eosSeen = false → s.hdrCnt.toNat < 15 →
    ∃ t, exec (.push b) s = .next t
      ∧ t = { s with hdrBuf := t.hdrBuf, hdrCnt := t.hdrCnt, resp := some ⟨.ok, 0⟩ }
      ∧ t.hdrCnt.toNat = s.hdrCnt.toNat + 1
      ∧ ∀ (i : Nat) (h : i < 16), t.hdrBuf[i] = if i = s.hdrCnt.toNat then b else s.hdrBuf[i]

/-- PUSH of the 16th header byte with a wrong magic: the byte and the count stand, nothing is latched, and InvalidMagic
is raised with the four compared bytes, the first in bits 7:0 (42_host_commands.md R192, 40_header_decoder.md R122). -/
def Obligations.SixteenthByteWithBadMagicRaises : Prop :=
  ∀ (b : Byte) (s : State), s.phase = .hdr → s.eosSeen = false → s.hdrCnt = 15 →
    ¬ (s.hdrBuf[0] = 0x4E ∧ s.hdrBuf[1] = 0x45 ∧ s.hdrBuf[2] = 0x53 ∧ s.hdrBuf[3] = 0x1A) →
    ∃ t, exec (.push b) s = .next t
      ∧ Raised .invalidMagic (s.hdrBuf[3] ++ s.hdrBuf[2] ++ s.hdrBuf[1] ++ s.hdrBuf[0])
          { s with hdrBuf := s.hdrBuf.set 15 b, hdrCnt := 16 } t

/-- PUSH of the 16th header byte with the right magic latches the header in one step: every register of the decoded group,
`HDR_VALID`, and the phase past every empty region; nothing else changes (42_host_commands.md R192,
40_header_decoder.md R121, 41_bank_extractor.md R166). -/
def Obligations.SixteenthByteWithGoodMagicLatches : Prop :=
  ∀ (b : Byte) (s : State), s.phase = .hdr → s.eosSeen = false → s.hdrCnt = 15 →
    (s.hdrBuf[0] = 0x4E ∧ s.hdrBuf[1] = 0x45 ∧ s.hdrBuf[2] = 0x53 ∧ s.hdrBuf[3] = 0x1A) →
    ∃ (t : State) (d : DecodedGroup), exec (.push b) s = .next t
      ∧ t = { s with hdrBuf := s.hdrBuf.set 15 b, hdrCnt := 16, hdrValid := true, decoded := some d, phase := t.phase,
                     resp := some ⟨.ok, 0⟩ }
      ∧ t.phase = (if s.hdrBuf[4] ≠ 0 then .prg else if s.hdrBuf[5] ≠ 0 then .chr else .done)
      ∧ d.magic = 0x1A53454E
      ∧ d.prgBanks = s.hdrBuf[4].setWidth 32
      ∧ d.chrBanks = s.hdrBuf[5].setWidth 32
      ∧ d.flags6 = s.hdrBuf[6].setWidth 32
      ∧ d.flags7 = s.hdrBuf[7].setWidth 32
      ∧ d.ramBanks = s.hdrBuf[8].setWidth 32
      ∧ d.flags9 = s.hdrBuf[9].setWidth 32
      ∧ d.tailLo = s.hdrBuf[13] ++ s.hdrBuf[12] ++ s.hdrBuf[11] ++ s.hdrBuf[10]
      ∧ d.tailHi = (b ++ s.hdrBuf[14]).setWidth 32
      ∧ d.mapper = mapperWord s.hdrBuf[6] s.hdrBuf[7]
      ∧ d.fields = unpackFields s.hdrBuf[6] s.hdrBuf[7] s.hdrBuf[9]
      ∧ d.prgSize.toNat = s.hdrBuf[4].toNat * 16384
      ∧ d.chrSize.toNat = s.hdrBuf[5].toNat * 8192
      ∧ d.prgCnt = 0 ∧ d.chrCnt = 0
      ∧ d.prgAcc = 0xFFFFFFFF ∧ d.chrAcc = 0xFFFFFFFF

/-- PUSH in phase PRG or CHR takes the byte through its region's accumulator and counter, moves the phase past every
region that is then complete, answers the region's tag, and changes nothing else (42_host_commands.md R193,
41_bank_extractor.md R166). -/
def Obligations.PushTakesARegionByte : Prop :=
  ∀ (b : Byte) (s : State) (d : DecodedGroup), s.eosSeen = false → s.decoded = some d →
    (s.phase = .prg → exec (.push b) s = .next { s with
        decoded := some { d with prgAcc := crcStep d.prgAcc b, prgCnt := d.prgCnt + 1 },
        phase := (if d.prgCnt + 1 = d.prgSize then if d.chrCnt = d.chrSize then .done else .chr else .prg),
        resp := some ⟨.ok, 1⟩ })
      ∧ (s.phase = .chr → exec (.push b) s = .next { s with
        decoded := some { d with chrAcc := crcStep d.chrAcc b, chrCnt := d.chrCnt + 1 },
        phase := (if d.chrCnt + 1 = d.chrSize then .done else .chr),
        resp := some ⟨.ok, 2⟩ })

/-- PUSH in phase DONE before EOS discards the byte: (0, 3), and no state changes (42_host_commands.md R194). -/
def Obligations.PushInDoneDiscardsTheByte : Prop :=
  ∀ (b : Byte) (s : State), s.phase = .done → s.eosSeen = false →
    exec (.push b) s = .next { s with resp := some ⟨.ok, 3⟩ }

/-- PUSH after EOS, outside phase ERROR, raises IllegalCommand with the command word (42_host_commands.md R191). -/
def Obligations.PushAfterEosIsIllegal : Prop :=
  ∀ (b : Byte) (s : State), s.phase ≠ .error → s.eosSeen = true →
    ∃ t, exec (.push b) s = .next t ∧ Raised .illegalCommand (0x10000000 ||| b.setWidth 32) s t

/-- In a state of the invariant, a PUSH in phase HDR, PRG or CHR moves the stream offset on by one, and the offset never
passes 6266896 (10_state.md R21). -/
def Obligations.PushMovesTheStreamOffsetByOne : Prop :=
  ∀ (b : Byte) (s : State), BlockInv s → (s.phase = .hdr ∨ s.phase = .prg ∨ s.phase = .chr) →
    ∃ t, exec (.push b) s = .next t ∧ t.streamOffset = s.streamOffset + 1 ∧ t.streamOffset ≤ 6266896

/-! ### Whole-machine rules -/

/-- The state after reset satisfies the invariant. -/
def Obligations.ResetStateSatisfiesTheInvariant : Prop := BlockInv State.reset

/-- Every step keeps the invariant: `HDR_VALID` and the decoded group agree, the counters stay within their sizes, the
decoded registers stay the latch of the header received, the phase fits the counters, and `ERRINFO` fits `ERR`
(10_state.md R27, R30, R42, 41_bank_extractor.md R166, 60_exceptions.md R234). -/
def Obligations.StepKeepsTheInvariant : Prop :=
  ∀ s t : State, BlockInv s → step s = .next t → BlockInv t

/-- A state of the invariant never stops: the step answers a next state, whatever the host's next action, and every
command word is answered by a response (30_encoding.md R98). -/
def Obligations.InvariantStatesNeverStop : Prop :=
  ∀ s : State, BlockInv s → ∃ t, step s = .next t
    ∧ ∀ w rest, s.issue = .command w :: rest → ∃ r, t.resp = some r

/-- Once an error is latched in phase ERROR, nothing but CLEAR or reset changes a register: the phase, `ERR`, `ERRINFO`
and all others stay. CLEAR and reset leave every piece of state at its reset value (60_exceptions.md R235). -/
def Obligations.LatchedErrorIsSticky : Prop :=
  ∀ s t : State, s.phase = .error → s.err.isSome = true → step s = .next t →
    ((∀ a, s.issue.head? = some a → a.endsInvocation = false) → t.regs = s.regs)
      ∧ ((∃ a, s.issue.head? = some a ∧ a.endsInvocation = true) → AtReset t)

/-- The phase moves only forward in the order HDR, PRG, CHR, DONE, ERROR, except by CLEAR or reset
(42_host_commands.md R210, 10_state.md R22). -/
def Obligations.PhaseOnlyMovesForward : Prop :=
  ∀ s t : State, (∀ a, s.issue.head? = some a → a.endsInvocation = false) → step s = .next t →
    s.phase.rank ≤ t.phase.rank

/-- After the latch the decoded fields are never written again in the invocation (10_state.md R30, 00_scope.md R12). -/
def Obligations.DecodedFieldsAreImmutable : Prop :=
  ∀ (s t : State) (d : DecodedGroup), BlockInv s → s.decoded = some d →
    (∀ a, s.issue.head? = some a → a.endsInvocation = false) → step s = .next t →
    ∃ d', t.decoded = some d' ∧ d'.headerPart = d.headerPart

/-- A command other than PUSH, EOS and CLEAR that answers OK or Aborted changes no register (10_state.md R45,
20_memory.md R64, 42_host_commands.md R190). -/
def Obligations.ReadsAndUtilitiesChangeNoRegister : Prop :=
  ∀ (i : Instr) (s t : State) (r : Response), (∀ b, i ≠ .push b) → i ≠ .eos → i ≠ .clear →
    exec i s = .next t → t.resp = some r → (r.st = .ok ∨ r.st = .aborted) → t.regs = s.regs

/-- A command whose response is an error enters phase ERROR, answers the value 0, latches the first error of the
invocation and no later one, and leaves the decoded group as it was (60_exceptions.md R230, R233). -/
def Obligations.ErrorAnswerLatchesTheFirstError : Prop :=
  ∀ (i : Instr) (s t : State) (e : ErrorCode) (v : Word), exec i s = .next t → t.resp = some ⟨.error e, v⟩ →
    v = 0 ∧ t.phase = .error ∧ (s.err = none → t.err = some e)
      ∧ (s.err ≠ none → t.err = s.err ∧ t.errInfo = s.errInfo)
      ∧ t.decoded = s.decoded ∧ t.hdrValid = s.hdrValid

/-- The header-buffer bytes not yet received can't be observed: two states that differ only in them step to states that
differ only in them, with the same response and the same readable registers (10_state.md R26). The model's zero reset
contents (log 5) therefore show nowhere. -/
def Obligations.UnreceivedHeaderBytesAreUnobservable : Prop :=
  ∀ s t : State, SameButUnreceived s t →
    (∀ s', step s = .next s' → ∃ t', step t = .next t' ∧ SameButUnreceived s' t')
      ∧ (∀ r, s.regValue r = t.regValue r)

/-- No step reads the response port: an earlier response has no effect on any later command (10_state.md R48). -/
def Obligations.ResponsePortIsNeverRead : Prop :=
  ∀ (s : State) (r : Option Response), step { s with resp := r } = step s

/-! ### The stream law (42_host_commands.md R197)

It starts from any state with the values of 10_state.md R47, as reset and CLEAR leave them, whatever `HDR_BUF` holds. -/

/-- Case 1: a stream shorter than 16 bytes. Every PUSH answers (0, 0), EOS answers (TruncatedInput, 0), and the end state
is phase ERROR with the number of bytes in `ERRINFO` and no decoded header, whatever the bytes. -/
def Obligations.ShortStreamEndsInTruncatedInput : Prop :=
  ∀ (bs : List Byte) (s : State), StreamScript bs s.issue → AtReset s → bs.length < 16 →
    ∃ t, Sys2Proof.core.run s.issue.length s = .next t
      ∧ t.phase = .error ∧ t.err = some .truncatedInput ∧ t.errInfo = BitVec.ofNat 32 bs.length
      ∧ t.hdrCnt.toNat = bs.length ∧ t.hdrValid = false ∧ t.decoded = none ∧ t.eosSeen = true
      ∧ pushResponses (transcript s.issue.length s) = bs.map (fun b => (b, ⟨.ok, 0⟩))
      ∧ eosResponses (transcript s.issue.length s) = [⟨.error .truncatedInput, 0⟩]

/-- Case 2: 16 bytes or more with a wrong magic. The 16th PUSH answers (InvalidMagic, 0), every later PUSH and the EOS
answer (Aborted, 0), and the end state has the four bytes in `ERRINFO`, no decoded header and no `EOS_SEEN`. -/
def Obligations.StreamWithBadMagicEndsInInvalidMagic : Prop :=
  ∀ (bs : List Byte) (s : State), StreamScript bs s.issue → AtReset s → 16 ≤ bs.length →
    bs.take 4 ≠ [0x4E, 0x45, 0x53, 0x1A] →
    ∃ t, Sys2Proof.core.run s.issue.length s = .next t
      ∧ t.phase = .error ∧ t.err = some .invalidMagic ∧ t.errInfo = packLe (bs.take 4)
      ∧ t.hdrCnt = 16 ∧ t.hdrValid = false ∧ t.decoded = none ∧ t.eosSeen = false
      ∧ pushResponses (transcript s.issue.length s)
          = (bs.take 15).map (fun b => (b, ⟨.ok, 0⟩)) ++ ((bs.drop 15).take 1).map (fun b => (b, ⟨.error .invalidMagic, 0⟩))
            ++ (bs.drop 16).map (fun b => (b, ⟨.aborted, 0⟩))
      ∧ eosResponses (transcript s.issue.length s) = [⟨.aborted, 0⟩]

/-- Case 3: 16 bytes or more with the right magic. The run ends in DONE with the decoded header, each region's count is
the shorter of its size and what the stream has left, each checksum is the CRC-32 of the bytes of its region as read, and
every byte is tagged with its region: the source's `decode` followed by `extract`, short reads accepted. -/
def Obligations.GoodStreamIsDecodedAndExtracted : Prop :=
  ∀ (bs : List Byte) (s : State), StreamScript bs s.issue → AtReset s → 16 ≤ bs.length →
    bs.take 4 = [0x4E, 0x45, 0x53, 0x1A] →
    ∃ t d, Sys2Proof.core.run s.issue.length s = .next t ∧ ExtractedAs bs t d
      ∧ pushResponses (transcript s.issue.length s) = tagsOf d.prgSize.toNat d.chrSize.toNat bs
      ∧ eosResponses (transcript s.issue.length s) = [⟨.ok, 0⟩]

/-! ### The host's side: report, assembler -/

/-- In a state of the invariant in phase DONE the report shows the header received, line by line
(42_host_commands.md R215, 40_header_decoder.md R123 to R130). -/
def Obligations.ReportShowsTheHeaderReceived : Prop :=
  ∀ s : State, BlockInv s → s.phase = .done →
    ∃ r, s.report = some r
      ∧ r.magic = 0x1A53454E
      ∧ r.prgBanks = s.hdrBuf[4].setWidth 32 ∧ r.prgKiB = s.hdrBuf[4].toNat * 16
      ∧ r.chrBanks = s.hdrBuf[5].setWidth 32 ∧ r.chrKiB = s.hdrBuf[5].toNat * 8
      ∧ r.mapperId = composeMapper s.hdrBuf[6] s.hdrBuf[7]
      ∧ r.mapperName = mapperName r.mapperId
      ∧ r.mirroring = (if s.hdrBuf[6].getLsbD 0 then .vertical else .horizontal)
      ∧ r.battery = s.hdrBuf[6].getLsbD 1
      ∧ r.trainer = s.hdrBuf[6].getLsbD 2
      ∧ r.fourScreen = s.hdrBuf[6].getLsbD 3
      ∧ r.vsSystem = s.hdrBuf[7].getLsbD 0
      ∧ r.reserved7 = s.hdrBuf[7].extractLsb' 1 3
      ∧ r.reserved9 = s.hdrBuf[9].extractLsb' 1 7
      ∧ r.tailLo = s.hdrBuf[13] ++ s.hdrBuf[12] ++ s.hdrBuf[11] ++ s.hdrBuf[10]
      ∧ r.tailHi = (s.hdrBuf[15] ++ s.hdrBuf[14]).setWidth 32
      ∧ r.ramBanks = s.hdrBuf[8].setWidth 32
      ∧ r.video = (if s.hdrBuf[9].getLsbD 0 then .pal else .ntsc)
      ∧ ∃ d, s.decoded = some d ∧ r.prgCrc = d.prgCrc ∧ r.chrCrc = d.chrCrc

/-- The assembler's forms: each gives the word of 30_encoding.md R99 for operands in range, and refuses an operand outside
its range. That RDREG's numeric index and the bytes of GETBIT, MAPC and SIZC range over 0 to 255, and `.word` over
0 to 4294967295, is read from their fields (log 15). -/
def Obligations.AssemblerFormsAreAsListed : Prop :=
  assemble .eos = some [0x20000000]
    ∧ assemble .clear = some [0xF0000000]
    ∧ (∀ b : Nat, assemble (.push b) = if b ≤ 255 then some [0x10000000 ||| BitVec.ofNat 32 b] else none)
    ∧ (∀ idx : Nat, assemble (.rdreg idx) = if idx ≤ 255 then some [0x30000000 ||| BitVec.ofNat 32 idx] else none)
    ∧ (∀ r : Reg, assemble (.rdregNamed r) = some [0x30000000 ||| r.index.setWidth 32])
    ∧ (∀ (pos : Int) (b : Nat), assemble (.getbit pos b) =
        if -128 ≤ pos ∧ pos ≤ 127 ∧ b ≤ 255
          then some [0x40000000 ||| ((BitVec.ofInt 32 pos &&& 0xFF) <<< 8) ||| BitVec.ofNat 32 b] else none)
    ∧ (∀ f6 f7 : Nat, assemble (.mapc f6 f7) =
        if f6 ≤ 255 ∧ f7 ≤ 255 then some [0x50000000 ||| (BitVec.ofNat 32 f7 <<< 8) ||| BitVec.ofNat 32 f6] else none)
    ∧ (∀ n : Nat, assemble (.sizc .prg n) = if n ≤ 255 then some [0x60000000 ||| BitVec.ofNat 32 n] else none)
    ∧ (∀ n : Nat, assemble (.sizc .chr n) = if n ≤ 255 then some [0x60000100 ||| BitVec.ofNat 32 n] else none)
    ∧ (∀ w : Nat, assemble (.word w) = if w < 4294967296 then some [BitVec.ofNat 32 w] else none)
    ∧ (∀ b : Int, b < 0 → assemble (.push b) = none ∧ assemble (.rdreg b) = none
        ∧ assemble (.sizc .prg b) = none ∧ assemble (.sizc .chr b) = none ∧ assemble (.word b) = none
        ∧ ∀ o : Int, assemble (.getbit o b) = none ∧ assemble (.mapc b o) = none ∧ assemble (.mapc o b) = none)

/-- The pseudo-instructions and their expansions, with the counts R100 refuses (30_encoding.md R100). -/
def Obligations.PseudoInstructionsExpandToPushes : Prop :=
  (∀ (n : Nat) (b : Byte), assemble (.pushN n b.toNat) = some (List.replicate n (0x10000000 ||| b.setWidth 32)))
    ∧ (∀ bs : List Byte, bs ≠ [] → assemble (.pushS (bs.map fun b => (b.toNat : Int)))
        = some (bs.map fun b => 0x10000000 ||| b.setWidth 32))
    ∧ (∀ bs : List Byte, assemble (.header (bs.map fun b => (b.toNat : Int)))
        = if bs.length = 16 then some (bs.map fun b => 0x10000000 ||| b.setWidth 32) else none)
    ∧ (∀ bs : List Byte, assemble (.feed bs) = some (bs.map fun b => 0x10000000 ||| b.setWidth 32))
    ∧ (∀ n b : Int, n < 0 → assemble (.pushN n b) = none)

/-- The byte operands of the pseudo-instructions are those of PUSH, 0 to 255: PUSHN, PUSHS and HEADER with one outside
that range, at any place among the operands, are refused and not truncated (30_encoding.md R99, R100). That PUSHS without
an operand is refused is the model's choice (log 15). -/
def Obligations.PseudoInstructionsRefuseOperandsOutOfRange : Prop :=
  (∀ n b : Int, b < 0 ∨ 255 < b → assemble (.pushN n b) = none)
    ∧ (∀ (bs : List Int) (b : Int), b ∈ bs → b < 0 ∨ 255 < b →
        assemble (.pushS bs) = none ∧ assemble (.header bs) = none)
    ∧ assemble (.pushS []) = none

/-- Every word the assembler makes from a line other than `.word` is the word of a well-formed command
(30_encoding.md R99, R100). -/
def Obligations.AssembledWordsAreCommands : Prop :=
  ∀ (line : AsmLine) (ws : List Word), (∀ w, line ≠ .word w) → assemble line = some ws →
    ∀ w ∈ ws, ∃ i : Instr, i.wf = true ∧ encode i = w ∧ decode w = .ok i
end

