-- ==== Sys2Proof/Laws/Assembler.lean ====
section
/-!
SUPPORT. What the assembler's reading of byte operands gives: the byte of a number in range, and the refusal of a number
outside it, alone or among others.
-/

namespace Sys2Proof.Machine

open Sys2Proof

theorem asmByte_nat (b : Nat) : asmByte b = if b ≤ 255 then some (BitVec.ofNat 8 b) else none := by
  unfold asmByte
  by_cases h : b ≤ 255
  · rw [if_pos h, if_pos (by omega)]; simp
  · rw [if_neg h, if_neg (by omega)]

theorem asmByte_byte (b : Byte) : asmByte (b.toNat : Int) = some b := by
  rw [asmByte_nat, if_pos (by have := b.isLt; omega)]; simp

theorem asmByte_outOfRange {b : Int} (h : b < 0 ∨ 255 < b) : asmByte b = none := if_neg (by omega)

theorem asmBytes_bytes (bs : List Byte) : asmBytes (bs.map fun b => (b.toNat : Int)) = some bs := by
  induction bs with
  | nil => rfl
  | cons b bs ih => simp only [List.map_cons, asmBytes, ih, asmByte_byte]; rfl

theorem asmBytes_outOfRange {bs : List Int} {b : Int} (hb : b ∈ bs) (h : b < 0 ∨ 255 < b) : asmBytes bs = none := by
  induction bs with
  | nil => cases hb
  | cons c cs ih =>
    rcases List.mem_cons.1 hb with rfl | hc
    · simp [asmBytes, asmByte_outOfRange h]
    · cases hx : asmByte c <;> simp [asmBytes, hx, ih hc]

end Sys2Proof.Machine
end

