-- ==== Sys2Proof/Laws/Decode.lean ====
section
/-!
SUPPORT. What the decoder and the encoder do on each constructor: the fields of an encoded word, and the inversion of a
successful decode.
-/

namespace Sys2Proof

theorem ifReservedZero_ok {w : Word} {lo : Nat} {i j : Instr} (h : ifReservedZero w lo i = .ok j) :
    j = i ∧ w.extractLsb' lo (28 - lo) = 0 := by
  unfold ifReservedZero at h
  split at h <;> simp_all

/-- A successful decode: the opcode, the reserved bits, and the operands of the one command it can be. -/
theorem decode_ok_cases {w : Word} {i : Instr} (h : decode w = .ok i) :
    (opcodeOf w = 0x1 ∧ w.extractLsb' 8 20 = 0 ∧ i = .push (loByte w))
      ∨ (opcodeOf w = 0x2 ∧ w.extractLsb' 0 28 = 0 ∧ i = .eos)
      ∨ (opcodeOf w = 0x3 ∧ w.extractLsb' 8 20 = 0 ∧ i = .rdreg (loByte w))
      ∨ (opcodeOf w = 0x4 ∧ w.extractLsb' 16 12 = 0 ∧ i = .getbit (hiByte w).toInt (loByte w))
      ∨ (opcodeOf w = 0x5 ∧ w.extractLsb' 16 12 = 0 ∧ i = .mapc (loByte w) (hiByte w))
      ∨ (opcodeOf w = 0x6 ∧ w.extractLsb' 9 19 = 0 ∧ i = .sizc (selOf w) (loByte w))
      ∨ (opcodeOf w = 0xF ∧ w.extractLsb' 0 28 = 0 ∧ i = .clear) := by
  unfold decode at h
  repeat' split at h
  all_goals first
    | cases h
    | (obtain ⟨rfl, hz⟩ := ifReservedZero_ok h; simp_all)

theorem opcodeOf_encode (i : Instr) :
    opcodeOf (encode i) = match i with
      | .push _ => 0x1
      | .eos => 0x2
      | .rdreg _ => 0x3
      | .getbit _ _ => 0x4
      | .mapc _ _ => 0x5
      | .sizc _ _ => 0x6
      | .clear => 0xF := by
  cases i with
  | eos => rfl
  | clear => rfl
  | sizc sel n => cases sel <;> ext k hk <;> interval_cases k <;> simp [opcodeOf, encode, selBit]
  | _ => ext k hk; interval_cases k <;> simp [opcodeOf, encode]

@[simp] theorem decode_encode_eos : decode (encode .eos) = .ok .eos := by decide

@[simp] theorem decode_encode_clear : decode (encode .clear) = .ok .clear := by decide

@[simp] theorem decode_encode_push (b : Byte) : decode (encode (.push b)) = .ok (.push b) := by
  have ho := opcodeOf_encode (.push b)
  have hz : (encode (.push b)).extractLsb' 8 20 = 0 := by
    ext k hk; interval_cases k <;> simp [encode]
  have hb : loByte (encode (.push b)) = b := by
    ext k hk; interval_cases k <;> simp [encode, loByte]
  simp [decode, ho, ifReservedZero, hz, hb]

@[simp] theorem decode_encode_rdreg (idx : Byte) : decode (encode (.rdreg idx)) = .ok (.rdreg idx) := by
  have ho := opcodeOf_encode (.rdreg idx)
  have hz : (encode (.rdreg idx)).extractLsb' 8 20 = 0 := by
    ext k hk; interval_cases k <;> simp [encode]
  have hb : loByte (encode (.rdreg idx)) = idx := by
    ext k hk; interval_cases k <;> simp [encode, loByte]
  simp [decode, ho, ifReservedZero, hz, hb]

@[simp] theorem decode_encode_mapc (f6 f7 : Byte) : decode (encode (.mapc f6 f7)) = .ok (.mapc f6 f7) := by
  have ho := opcodeOf_encode (.mapc f6 f7)
  have hz : (encode (.mapc f6 f7)).extractLsb' 16 12 = 0 := by
    ext k hk; interval_cases k <;> simp [encode]
  have hb : loByte (encode (.mapc f6 f7)) = f6 := by
    ext k hk; interval_cases k <;> simp [encode, loByte]
  have hh : hiByte (encode (.mapc f6 f7)) = f7 := by
    ext k hk; interval_cases k <;> simp [encode, hiByte]
  simp [decode, ho, ifReservedZero, hz, hb, hh]

@[simp] theorem decode_encode_sizc (sel : Region) (n : Byte) : decode (encode (.sizc sel n)) = .ok (.sizc sel n) := by
  have ho := opcodeOf_encode (.sizc sel n)
  have hz : (encode (.sizc sel n)).extractLsb' 9 19 = 0 := by
    cases sel <;> ext k hk <;> interval_cases k <;> simp [encode, selBit]
  have hb : loByte (encode (.sizc sel n)) = n := by
    cases sel <;> ext k hk <;> interval_cases k <;> simp [encode, loByte, selBit]
  have hs : selOf (encode (.sizc sel n)) = sel := by
    cases sel <;> simp [encode, selOf, selBit]
  simp [decode, ho, ifReservedZero, hz, hb, hs]

/-- The decoder gives GETBIT back with the position's two's complement read as a signed number. -/
theorem decode_encode_getbit (pos : Int) (b : Byte) :
    decode (encode (.getbit pos b)) = .ok (.getbit (BitVec.ofInt 8 pos).toInt b) := by
  have ho := opcodeOf_encode (.getbit pos b)
  have hz : (encode (.getbit pos b)).extractLsb' 16 12 = 0 := by
    ext k hk; interval_cases k <;> simp [encode]
  have hb : loByte (encode (.getbit pos b)) = b := by
    ext k hk; interval_cases k <;> simp [encode, loByte]
  have hh : hiByte (encode (.getbit pos b)) = BitVec.ofInt 8 pos := by
    ext k hk; interval_cases k <;> simp [encode, hiByte]
  simp [decode, ho, ifReservedZero, hz, hb, hh]

/-- A position in range is the signed value of its 8-bit two's complement. -/
theorem toInt_ofInt_of_inRange {pos : Int} (h : posInRange pos) : (BitVec.ofInt 8 pos).toInt = pos := by
  rw [BitVec.toInt_ofInt]
  exact Int.bmod_eq_of_le (by have := h.1; omega) (by have := h.2; omega)

/-- The word of GETBIT at the signed value of an 8-bit field holds that field. -/
theorem encode_getbit_toInt (v : BitVec 8) (b : Byte) :
    encode (.getbit v.toInt b) = 0x40000000 ||| (v.setWidth 32 <<< 8) ||| b.setWidth 32 := by
  rw [encode, BitVec.ofInt_toInt]

/-- A bit of a field that is zero. -/
theorem getLsbD_of_field_zero {w : Word} {lo n k : Nat} (h : w.extractLsb' lo n = 0) (h1 : lo ≤ k) (h2 : k < lo + n) :
    w.getLsbD k = false := by
  have hk := congrArg (fun v => v.getLsbD (k - lo)) h
  simp at hk
  have h3 := hk (by omega)
  rwa [Nat.add_sub_cancel' h1] at h3

/-- A bit of the opcode field. -/
theorem getLsbD_of_opcode {w : Word} {c : BitVec 4} (h : opcodeOf w = c) (k : Nat) (hk : k < 4) :
    w.getLsbD (28 + k) = c.getLsbD k := by
  rw [← h]
  simp [opcodeOf, hk]

/-- A signed 8-bit value is in range. -/
theorem posInRange_toInt (v : BitVec 8) : posInRange v.toInt := by
  constructor
  · have := v.le_toInt; omega
  · have := v.toInt_lt; omega

end Sys2Proof
end

