-- ==== Sys2Proof/Laws/State.lean ====
section
/-!
SUPPORT. One lemma per field per named update of the state, true by rfl, so that no later proof unfolds a record update.
-/

namespace Sys2Proof.Machine

open Sys2Proof

/-! ### `respond` -/

@[simp] theorem respond_phase (st : Status) (val : Word) (s : State) :
    (respond st val s).phase = s.phase := rfl
@[simp] theorem respond_hdrValid (st : Status) (val : Word) (s : State) :
    (respond st val s).hdrValid = s.hdrValid := rfl
@[simp] theorem respond_eosSeen (st : Status) (val : Word) (s : State) :
    (respond st val s).eosSeen = s.eosSeen := rfl
@[simp] theorem respond_err (st : Status) (val : Word) (s : State) :
    (respond st val s).err = s.err := rfl
@[simp] theorem respond_errInfo (st : Status) (val : Word) (s : State) :
    (respond st val s).errInfo = s.errInfo := rfl
@[simp] theorem respond_hdrCnt (st : Status) (val : Word) (s : State) :
    (respond st val s).hdrCnt = s.hdrCnt := rfl
@[simp] theorem respond_hdrBuf (st : Status) (val : Word) (s : State) :
    (respond st val s).hdrBuf = s.hdrBuf := rfl
@[simp] theorem respond_decoded (st : Status) (val : Word) (s : State) :
    (respond st val s).decoded = s.decoded := rfl
@[simp] theorem respond_issue (st : Status) (val : Word) (s : State) :
    (respond st val s).issue = s.issue := rfl
@[simp] theorem respond_resp (st : Status) (val : Word) (s : State) :
    (respond st val s).resp = some ⟨st, val⟩ := rfl

/-! ### `idle` -/

@[simp] theorem idle_phase (s : State) :
    (idle s).phase = s.phase := rfl
@[simp] theorem idle_hdrValid (s : State) :
    (idle s).hdrValid = s.hdrValid := rfl
@[simp] theorem idle_eosSeen (s : State) :
    (idle s).eosSeen = s.eosSeen := rfl
@[simp] theorem idle_err (s : State) :
    (idle s).err = s.err := rfl
@[simp] theorem idle_errInfo (s : State) :
    (idle s).errInfo = s.errInfo := rfl
@[simp] theorem idle_hdrCnt (s : State) :
    (idle s).hdrCnt = s.hdrCnt := rfl
@[simp] theorem idle_hdrBuf (s : State) :
    (idle s).hdrBuf = s.hdrBuf := rfl
@[simp] theorem idle_decoded (s : State) :
    (idle s).decoded = s.decoded := rfl
@[simp] theorem idle_issue (s : State) :
    (idle s).issue = s.issue := rfl
@[simp] theorem idle_resp (s : State) :
    (idle s).resp = none := rfl

/-! ### `regs` -/

@[simp] theorem regs_phase (s : State) :
    (s.regs).phase = s.phase := rfl
@[simp] theorem regs_hdrValid (s : State) :
    (s.regs).hdrValid = s.hdrValid := rfl
@[simp] theorem regs_eosSeen (s : State) :
    (s.regs).eosSeen = s.eosSeen := rfl
@[simp] theorem regs_err (s : State) :
    (s.regs).err = s.err := rfl
@[simp] theorem regs_errInfo (s : State) :
    (s.regs).errInfo = s.errInfo := rfl
@[simp] theorem regs_hdrCnt (s : State) :
    (s.regs).hdrCnt = s.hdrCnt := rfl
@[simp] theorem regs_hdrBuf (s : State) :
    (s.regs).hdrBuf = s.hdrBuf := rfl
@[simp] theorem regs_decoded (s : State) :
    (s.regs).decoded = s.decoded := rfl
@[simp] theorem regs_issue (s : State) :
    (s.regs).issue = [] := rfl
@[simp] theorem regs_resp (s : State) :
    (s.regs).resp = none := rfl

/-! ### `clearBlock` -/

@[simp] theorem clearBlock_phase (s : State) :
    (clearBlock s).phase = .hdr := rfl
@[simp] theorem clearBlock_hdrValid (s : State) :
    (clearBlock s).hdrValid = false := rfl
@[simp] theorem clearBlock_eosSeen (s : State) :
    (clearBlock s).eosSeen = false := rfl
@[simp] theorem clearBlock_err (s : State) :
    (clearBlock s).err = none := rfl
@[simp] theorem clearBlock_errInfo (s : State) :
    (clearBlock s).errInfo = 0 := rfl
@[simp] theorem clearBlock_hdrCnt (s : State) :
    (clearBlock s).hdrCnt = 0 := rfl
@[simp] theorem clearBlock_hdrBuf (s : State) :
    (clearBlock s).hdrBuf = Vector.replicate Config.hdrLen 0 := rfl
@[simp] theorem clearBlock_decoded (s : State) :
    (clearBlock s).decoded = none := rfl
@[simp] theorem clearBlock_issue (s : State) :
    (clearBlock s).issue = s.issue := rfl
@[simp] theorem clearBlock_resp (s : State) :
    (clearBlock s).resp = none := rfl

/-! ### `withRegion` -/

@[simp] theorem withRegion_phase (p : Phase) (d : DecodedGroup) (s : State) :
    (withRegion p d s).phase = advance p d := rfl
@[simp] theorem withRegion_hdrValid (p : Phase) (d : DecodedGroup) (s : State) :
    (withRegion p d s).hdrValid = s.hdrValid := rfl
@[simp] theorem withRegion_eosSeen (p : Phase) (d : DecodedGroup) (s : State) :
    (withRegion p d s).eosSeen = s.eosSeen := rfl
@[simp] theorem withRegion_err (p : Phase) (d : DecodedGroup) (s : State) :
    (withRegion p d s).err = s.err := rfl
@[simp] theorem withRegion_errInfo (p : Phase) (d : DecodedGroup) (s : State) :
    (withRegion p d s).errInfo = s.errInfo := rfl
@[simp] theorem withRegion_hdrCnt (p : Phase) (d : DecodedGroup) (s : State) :
    (withRegion p d s).hdrCnt = s.hdrCnt := rfl
@[simp] theorem withRegion_hdrBuf (p : Phase) (d : DecodedGroup) (s : State) :
    (withRegion p d s).hdrBuf = s.hdrBuf := rfl
@[simp] theorem withRegion_decoded (p : Phase) (d : DecodedGroup) (s : State) :
    (withRegion p d s).decoded = some d := rfl
@[simp] theorem withRegion_issue (p : Phase) (d : DecodedGroup) (s : State) :
    (withRegion p d s).issue = s.issue := rfl
@[simp] theorem withRegion_resp (p : Phase) (d : DecodedGroup) (s : State) :
    (withRegion p d s).resp = s.resp := rfl

/-! ### `latch` -/

@[simp] theorem latch_phase (d : DecodedHeader) (s : State) :
    (latch d s).phase = advance .prg (latchedGroup d) := by simp only [latch, withRegion]
@[simp] theorem latch_hdrValid (d : DecodedHeader) (s : State) :
    (latch d s).hdrValid = true := by unfold latch withRegion; rfl
@[simp] theorem latch_eosSeen (d : DecodedHeader) (s : State) :
    (latch d s).eosSeen = s.eosSeen := by unfold latch withRegion; rfl
@[simp] theorem latch_err (d : DecodedHeader) (s : State) :
    (latch d s).err = s.err := by unfold latch withRegion; rfl
@[simp] theorem latch_errInfo (d : DecodedHeader) (s : State) :
    (latch d s).errInfo = s.errInfo := by unfold latch withRegion; rfl
@[simp] theorem latch_hdrCnt (d : DecodedHeader) (s : State) :
    (latch d s).hdrCnt = s.hdrCnt := by unfold latch withRegion; rfl
@[simp] theorem latch_hdrBuf (d : DecodedHeader) (s : State) :
    (latch d s).hdrBuf = s.hdrBuf := by unfold latch withRegion; rfl
@[simp] theorem latch_decoded (d : DecodedHeader) (s : State) :
    (latch d s).decoded = some (latchedGroup d) := by unfold latch withRegion; rfl
@[simp] theorem latch_issue (d : DecodedHeader) (s : State) :
    (latch d s).issue = s.issue := by unfold latch withRegion; rfl
@[simp] theorem latch_resp (d : DecodedHeader) (s : State) :
    (latch d s).resp = s.resp := by unfold latch withRegion; rfl

/-! ### `storeHeaderByte` -/

@[simp] theorem storeHeaderByte_phase (b : Byte) (s : State) :
    (storeHeaderByte b s).phase = s.phase := rfl
@[simp] theorem storeHeaderByte_hdrValid (b : Byte) (s : State) :
    (storeHeaderByte b s).hdrValid = s.hdrValid := rfl
@[simp] theorem storeHeaderByte_eosSeen (b : Byte) (s : State) :
    (storeHeaderByte b s).eosSeen = s.eosSeen := rfl
@[simp] theorem storeHeaderByte_err (b : Byte) (s : State) :
    (storeHeaderByte b s).err = s.err := rfl
@[simp] theorem storeHeaderByte_errInfo (b : Byte) (s : State) :
    (storeHeaderByte b s).errInfo = s.errInfo := rfl
@[simp] theorem storeHeaderByte_hdrCnt (b : Byte) (s : State) :
    (storeHeaderByte b s).hdrCnt = s.hdrCnt + 1 := rfl
@[simp] theorem storeHeaderByte_hdrBuf (b : Byte) (s : State) :
    (storeHeaderByte b s).hdrBuf = s.hdrBuf.setIfInBounds s.hdrCnt.toNat b := rfl
@[simp] theorem storeHeaderByte_decoded (b : Byte) (s : State) :
    (storeHeaderByte b s).decoded = s.decoded := rfl
@[simp] theorem storeHeaderByte_issue (b : Byte) (s : State) :
    (storeHeaderByte b s).issue = s.issue := rfl
@[simp] theorem storeHeaderByte_resp (b : Byte) (s : State) :
    (storeHeaderByte b s).resp = s.resp := rfl

/-! ### `latchError` and `raise` -/

@[simp] theorem latchError_err (e : ErrorCode) (info : Word) (s : State) :
    (latchError e info s).err = some (s.err.getD e) := by
  unfold latchError; split <;> simp_all

@[simp] theorem latchError_errInfo (e : ErrorCode) (info : Word) (s : State) :
    (latchError e info s).errInfo = if s.err = none then info else s.errInfo := by
  unfold latchError; split <;> simp_all

@[simp] theorem latchError_phase (e : ErrorCode) (info : Word) (s : State) :
    (latchError e info s).phase = s.phase := by
  unfold latchError; split <;> rfl
@[simp] theorem latchError_hdrValid (e : ErrorCode) (info : Word) (s : State) :
    (latchError e info s).hdrValid = s.hdrValid := by
  unfold latchError; split <;> rfl
@[simp] theorem latchError_eosSeen (e : ErrorCode) (info : Word) (s : State) :
    (latchError e info s).eosSeen = s.eosSeen := by
  unfold latchError; split <;> rfl
@[simp] theorem latchError_hdrCnt (e : ErrorCode) (info : Word) (s : State) :
    (latchError e info s).hdrCnt = s.hdrCnt := by
  unfold latchError; split <;> rfl
@[simp] theorem latchError_hdrBuf (e : ErrorCode) (info : Word) (s : State) :
    (latchError e info s).hdrBuf = s.hdrBuf := by
  unfold latchError; split <;> rfl
@[simp] theorem latchError_decoded (e : ErrorCode) (info : Word) (s : State) :
    (latchError e info s).decoded = s.decoded := by
  unfold latchError; split <;> rfl
@[simp] theorem latchError_issue (e : ErrorCode) (info : Word) (s : State) :
    (latchError e info s).issue = s.issue := by
  unfold latchError; split <;> rfl
@[simp] theorem latchError_resp (e : ErrorCode) (info : Word) (s : State) :
    (latchError e info s).resp = s.resp := by
  unfold latchError; split <;> rfl

@[simp] theorem raise_phase (e : ErrorCode) (info : Word) (s : State) :
    (raise e info s).phase = .error := by
  simp [raise]
@[simp] theorem raise_hdrValid (e : ErrorCode) (info : Word) (s : State) :
    (raise e info s).hdrValid = s.hdrValid := by
  simp [raise]
@[simp] theorem raise_eosSeen (e : ErrorCode) (info : Word) (s : State) :
    (raise e info s).eosSeen = s.eosSeen := by
  simp [raise]
@[simp] theorem raise_err (e : ErrorCode) (info : Word) (s : State) :
    (raise e info s).err = some (s.err.getD e) := by
  simp [raise]
@[simp] theorem raise_errInfo (e : ErrorCode) (info : Word) (s : State) :
    (raise e info s).errInfo = if s.err = none then info else s.errInfo := by
  simp [raise]
@[simp] theorem raise_hdrCnt (e : ErrorCode) (info : Word) (s : State) :
    (raise e info s).hdrCnt = s.hdrCnt := by
  simp [raise]
@[simp] theorem raise_hdrBuf (e : ErrorCode) (info : Word) (s : State) :
    (raise e info s).hdrBuf = s.hdrBuf := by
  simp [raise]
@[simp] theorem raise_decoded (e : ErrorCode) (info : Word) (s : State) :
    (raise e info s).decoded = s.decoded := by
  simp [raise]
@[simp] theorem raise_issue (e : ErrorCode) (info : Word) (s : State) :
    (raise e info s).issue = s.issue := by
  simp [raise]
@[simp] theorem raise_resp (e : ErrorCode) (info : Word) (s : State) :
    (raise e info s).resp = some ⟨.error e, 0⟩ := by
  simp [raise]

/-! ### Region bytes on the decoded group -/

@[simp] theorem takePrg_prgSize (d : DecodedGroup) (b : Byte) :
    (d.takePrg b).prgSize = d.prgSize := rfl
@[simp] theorem takePrg_chrSize (d : DecodedGroup) (b : Byte) :
    (d.takePrg b).chrSize = d.chrSize := rfl
@[simp] theorem takePrg_prgCnt (d : DecodedGroup) (b : Byte) :
    (d.takePrg b).prgCnt = d.prgCnt + 1 := rfl
@[simp] theorem takePrg_chrCnt (d : DecodedGroup) (b : Byte) :
    (d.takePrg b).chrCnt = d.chrCnt := rfl
@[simp] theorem takePrg_prgAcc (d : DecodedGroup) (b : Byte) :
    (d.takePrg b).prgAcc = crcStep d.prgAcc b := rfl
@[simp] theorem takePrg_chrAcc (d : DecodedGroup) (b : Byte) :
    (d.takePrg b).chrAcc = d.chrAcc := rfl
@[simp] theorem takePrg_headerPart (d : DecodedGroup) (b : Byte) :
    (d.takePrg b).headerPart = d.headerPart := rfl
@[simp] theorem takeChr_prgSize (d : DecodedGroup) (b : Byte) :
    (d.takeChr b).prgSize = d.prgSize := rfl
@[simp] theorem takeChr_chrSize (d : DecodedGroup) (b : Byte) :
    (d.takeChr b).chrSize = d.chrSize := rfl
@[simp] theorem takeChr_prgCnt (d : DecodedGroup) (b : Byte) :
    (d.takeChr b).prgCnt = d.prgCnt := rfl
@[simp] theorem takeChr_chrCnt (d : DecodedGroup) (b : Byte) :
    (d.takeChr b).chrCnt = d.chrCnt + 1 := rfl
@[simp] theorem takeChr_prgAcc (d : DecodedGroup) (b : Byte) :
    (d.takeChr b).prgAcc = d.prgAcc := rfl
@[simp] theorem takeChr_chrAcc (d : DecodedGroup) (b : Byte) :
    (d.takeChr b).chrAcc = crcStep d.chrAcc b := rfl
@[simp] theorem takeChr_headerPart (d : DecodedGroup) (b : Byte) :
    (d.takeChr b).headerPart = d.headerPart := rfl

end Sys2Proof.Machine
end

