-- ==== Sys2Proof/Laws/Ops.lean ====
section
/-!
SUPPORT. What each shared operation can do, said once: the ERROR gate, `Advance`, the register read, the accumulator
loop, and the inversion of a step.
-/

namespace Sys2Proof.Machine

open Sys2Proof

/-! ### Bits -/

@[simp] theorem bitWord_getLsbD (c : Bool) (i : Nat) : (bitWord c).getLsbD i = (decide (i = 0) && c) := by
  cases c <;> simp [bitWord, BitVec.getLsbD_one]

@[simp] theorem bitWord_getElem (c : Bool) (i : Nat) (h : i < 32) : (bitWord c)[i] = (decide (i = 0) && c) := by
  cases c <;> simp [bitWord, BitVec.getElem_one]

/-- A single bit of a byte, extended to a word. -/
@[simp] theorem setWidth_bitAt (b : Byte) (n : Nat) : (bitAt b n).setWidth 32 = bitWord (b.getLsbD n) := by
  ext i hi
  simp only [bitAt, BitVec.getElem_setWidth, bitWord_getElem]
  rcases i with _ | i
  · by_cases h : b.getLsbD n <;> simp_all
  · by_cases h : b.getLsbD n <;> simp_all [BitVec.getLsbD_one]

theorem getBit_inRange {b : Byte} {pos : Int} (h0 : 0 ≤ pos) (h7 : pos ≤ 7) : getBit b pos = .ok (bitAt b pos.toNat) := by
  have : ¬ (pos < 0 ∨ pos > 7) := by omega
  simp [getBit, this]

theorem getBit_outOfRange {b : Byte} {pos : Int} (h : pos < 0 ∨ 7 < pos) :
    getBit b pos = .error (BitVec.ofInt 32 pos) := by
  have : pos < 0 ∨ pos > 7 := by omega
  simp [getBit, this]

/-! ### Sizes and CRC -/

theorem sizeCalc_prg_toNat : ∀ n : Byte, (sizeCalc .prg n).toNat = n.toNat * 16384 := by decide

theorem sizeCalc_chr_toNat : ∀ n : Byte, (sizeCalc .chr n).toNat = n.toNat * 8192 := by decide

theorem crcBit_xor (a b : Word) : crcBit (a ^^^ b) = crcBit a ^^^ crcBit b := by
  unfold crcBit
  have h : (a ^^^ b).getLsbD 0 = (a.getLsbD 0 ^^ b.getLsbD 0) := by simp
  rw [h, BitVec.ushiftRight_xor_distrib]
  cases a.getLsbD 0 <;> cases b.getLsbD 0 <;> simp [BitVec.xor_assoc]
  rw [BitVec.xor_comm (b >>> 1)]

/-- The accumulator loop is linear over exclusive-or. -/
theorem crcBits_xor (n : Nat) (a b : Word) : crcBits n (a ^^^ b) = crcBits n a ^^^ crcBits n b := by
  induction n generalizing a b with
  | zero => rfl
  | succ n ih => simp only [crcBits, crcBit_xor, ih]

/-- Over bits that are zero the loop only shifts. -/
theorem crcBits_of_low_zero (n : Nat) (a : Word) (h : ∀ i < n, a.getLsbD i = false) : crcBits n a = a >>> n := by
  induction n generalizing a with
  | zero => simp [crcBits]
  | succ n ih =>
    have h0 := h 0 (by omega)
    simp only [crcBits, crcBit, h0]
    rw [ih]
    · simp only [Bool.false_eq_true, if_false]
      rw [← BitVec.shiftRight_add, Nat.add_comm]
    · intro i hi
      simpa using h (1 + i) (by omega)

/-- One more byte at the end of a sequence. -/
theorem crc32_append_singleton (bs : List Byte) (b : Byte) :
    crc32 (bs ++ [b]) = crcStep (crc32 bs ^^^ crcOnes) b ^^^ crcOnes := by
  simp [crc32, List.foldl_append]

/-! ### The gate and the error entry -/

@[simp] theorem unlessError_of_ne {s : State} {act : State → Result} (h : s.phase ≠ .error) :
    unlessError s act = act s := by simp [unlessError, h]

@[simp] theorem unlessError_of_eq {s : State} {act : State → Result} (h : s.phase = .error) :
    unlessError s act = .next (respond .aborted 0 s) := by simp [unlessError, h]

/-- Two states are equal when all their fields are. -/
theorem State.eq_of_fields {s t : State} (h1 : s.phase = t.phase) (h2 : s.hdrValid = t.hdrValid)
    (h3 : s.eosSeen = t.eosSeen) (h4 : s.err = t.err) (h5 : s.errInfo = t.errInfo) (h6 : s.hdrCnt = t.hdrCnt)
    (h7 : s.hdrBuf = t.hdrBuf) (h8 : s.decoded = t.decoded) (h9 : s.issue = t.issue) (h10 : s.resp = t.resp) : s = t := by
  cases s; cases t; simp_all

theorem raise_raised (e : ErrorCode) (info : Word) (s : State) : Raised e info s (raise e info s) where
  phase := raise_phase e info s
  answer := raise_resp e info s
  first := by intro h; simp [h]
  later := by
    intro h
    obtain ⟨e', he⟩ := Option.ne_none_iff_exists'.mp h
    simp [he]
  frame := by apply State.eq_of_fields <;> simp

/-- With an error latched in phase ERROR, a further `raise` changes no register. -/
theorem raise_regs_of_latched {s : State} (e : ErrorCode) (info : Word) (hp : s.phase = .error) (he : s.err.isSome = true) :
    (raise e info s).regs = s.regs := by
  obtain ⟨e', he⟩ := Option.isSome_iff_exists.mp he
  apply State.eq_of_fields <;> simp [he, hp]

/-! ### Advance -/

theorem advance_hdr (d : DecodedGroup) : advance .hdr d = .hdr := by simp [advance]

theorem advance_prg (d : DecodedGroup) :
    advance .prg d = if d.prgCnt = d.prgSize then (if d.chrCnt = d.chrSize then .done else .chr) else .prg := by
  by_cases h : d.prgCnt = d.prgSize <;> simp [advance, h]

theorem advance_chr (d : DecodedGroup) : advance .chr d = if d.chrCnt = d.chrSize then .done else .chr := by
  simp [advance]

/-- Everything `Advance()` from phase PRG can do. -/
theorem advance_prg_cases (d : DecodedGroup) :
    (d.prgCnt = d.prgSize ∧ d.chrCnt = d.chrSize ∧ advance .prg d = .done)
      ∨ (d.prgCnt = d.prgSize ∧ d.chrCnt ≠ d.chrSize ∧ advance .prg d = .chr)
      ∨ (d.prgCnt ≠ d.prgSize ∧ advance .prg d = .prg) := by
  rw [advance_prg]
  by_cases h1 : d.prgCnt = d.prgSize <;> by_cases h2 : d.chrCnt = d.chrSize <;> simp [h1, h2]

/-- Everything `Advance()` from phase CHR can do. -/
theorem advance_chr_cases (d : DecodedGroup) :
    (d.chrCnt = d.chrSize ∧ advance .chr d = .done) ∨ (d.chrCnt ≠ d.chrSize ∧ advance .chr d = .chr) := by
  rw [advance_chr]
  by_cases h : d.chrCnt = d.chrSize <;> simp [h]

/-- A counter below its size does not wrap. -/
theorem toNat_add_one_of_lt {a b : Word} (h : a.toNat < b.toNat) : (a + 1).toNat = a.toNat + 1 := by
  have := b.isLt
  rw [BitVec.toNat_add]
  simp
  omega

/-! ### The register read -/

/-- A mapped read answers the value or raises NotDecoded; a register of the always group always answers. -/
theorem readReg_cases (r : Reg) (s : State) :
    (∃ v, s.regValue r = some v ∧ s.mayRead r = true ∧ readReg r s = respond .ok v s)
      ∨ (r.group = .decoded ∧ readReg r s = raise .notDecoded (r.index.setWidth 32) s) := by
  unfold readReg
  split
  · next v h1 h2 => exact .inl ⟨v, h2, h1, rfl⟩
  · next h =>
    refine .inr ⟨?_, rfl⟩
    cases r <;> simp_all [State.mayRead, State.regValue, Reg.group]

/-- The indices of the register map are those of 10_state.md R44. -/
theorem ofIndex_isSome_iff : ∀ idx : Byte, (Reg.ofIndex idx).isSome = true ↔
    (idx.toNat ≤ 0x02 ∨ (0x10 ≤ idx.toNat ∧ idx.toNat ≤ 0x1A) ∨ (0x20 ≤ idx.toNat ∧ idx.toNat ≤ 0x25)) := by
  decide

theorem ofIndex_index (r : Reg) : Reg.ofIndex r.index = some r := by cases r <;> rfl

/-- The register at an index has that index. -/
theorem index_of_ofIndex {idx : Byte} {r : Reg} (h : Reg.ofIndex idx = some r) : r.index = idx := by
  simpa using List.find?_some h

/-! ### The step -/

/-- What a step can be: idle, the reset input, an illegal word, or `exec` of a decoded command. -/
theorem step_cases {s t : State} (h : step s = .next t) :
    (s.issue = [] ∧ t = idle s)
      ∨ (∃ rest, s.issue = .assertReset :: rest ∧ t = hardwareReset { s with issue := rest })
      ∨ (∃ w rest e, s.issue = .command w :: rest ∧ decode w = .error e
          ∧ t = raise .illegalCommand w { s with issue := rest })
      ∨ (∃ w rest i, s.issue = .command w :: rest ∧ decode w = .ok i ∧ exec i { s with issue := rest } = .next t) := by
  unfold step at h
  split at h
  · next hi => cases h; exact .inl ⟨hi, rfl⟩
  · next rest hi => cases h; exact .inr (.inl ⟨rest, hi, rfl⟩)
  · next w rest hi =>
    unfold execute at h
    split at h
    · next e he => cases h; exact .inr (.inr (.inl ⟨w, rest, e, hi, he, rfl⟩))
    · next i hd => exact .inr (.inr (.inr ⟨w, rest, i, hi, hd, h⟩))

/-! ### One lemma per meaning -/

theorem pushHeader_early {b : Byte} {s : State} (h : s.hdrCnt.toNat < 15) :
    pushHeader b s = .next (respond .ok 0 (storeHeaderByte b s)) := by
  have h1 : (storeHeaderByte b s).hdrCnt.toNat < 16 := by
    rw [storeHeaderByte_hdrCnt, BitVec.toNat_add]
    simp
    omega
  have h2 : s.hdrCnt.toNat < 16 := by omega
  simp only [pushHeader, Config.hdrLen, h1, h2, if_true]

theorem pushHeader_last {b : Byte} {s : State} (h : s.hdrCnt = 15) :
    pushHeader b s = .next (finishHeader (storeHeaderByte b s)) := by
  simp [pushHeader, Config.hdrLen, h]

theorem pushHeader_full {b : Byte} {s : State} (h : 16 ≤ s.hdrCnt.toNat) :
    pushHeader b s = .fault .headerBufferFull := by
  have h2 : ¬ s.hdrCnt.toNat < 16 := by omega
  simp [pushHeader, Config.hdrLen, h2]

theorem finishHeader_bad {s : State} (h : magicOK s.hdrBuf = false) :
    finishHeader s = raise .invalidMagic (magicInfo s.hdrBuf) s := by
  simp [finishHeader, decodeHeader, h]

theorem finishHeader_good {s : State} (h : magicOK s.hdrBuf = true) :
    finishHeader s = respond .ok 0 (latch (headerFields s.hdrBuf) s) := by
  simp [finishHeader, decodeHeader, h]

theorem execPush_aborted {b : Byte} {s : State} (hp : s.phase = .error) :
    execPush b s = .next (respond .aborted 0 s) := by
  simp [execPush, hp]

theorem execPush_afterEos {b : Byte} {s : State} (hp : s.phase ≠ .error) (he : s.eosSeen = true) :
    execPush b s = .next (raise .illegalCommand (encode (.push b)) s) := by
  simp [execPush, hp, he]

theorem execPush_hdr {b : Byte} {s : State} (hp : s.phase = .hdr) (he : s.eosSeen = false) :
    execPush b s = pushHeader b s := by
  simp [execPush, unlessError, pushByPhase, hp, he]

theorem execPush_prg {b : Byte} {s : State} {d : DecodedGroup} (hp : s.phase = .prg) (he : s.eosSeen = false)
    (hd : s.decoded = some d) : execPush b s = .next (respond .ok 1 (withRegion .prg (d.takePrg b) s)) := by
  simp [execPush, unlessError, pushByPhase, pushPrg, hp, he, hd]

theorem execPush_chr {b : Byte} {s : State} {d : DecodedGroup} (hp : s.phase = .chr) (he : s.eosSeen = false)
    (hd : s.decoded = some d) : execPush b s = .next (respond .ok 2 (withRegion .chr (d.takeChr b) s)) := by
  simp [execPush, unlessError, pushByPhase, pushChr, hp, he, hd]

theorem execPush_done {b : Byte} {s : State} (hp : s.phase = .done) (he : s.eosSeen = false) :
    execPush b s = .next (respond .ok 3 s) := by
  simp [execPush, unlessError, pushByPhase, hp, he]

/-- Everything a PUSH that answers a next state can do. -/
theorem execPush_cases {b : Byte} {s t : State} (h : execPush b s = .next t) :
    (s.phase = .error ∧ t = respond .aborted 0 s)
      ∨ (s.phase ≠ .error ∧ s.eosSeen = true ∧ t = raise .illegalCommand (encode (.push b)) s)
      ∨ (s.phase = .hdr ∧ s.eosSeen = false ∧ s.hdrCnt.toNat < 15 ∧ t = respond .ok 0 (storeHeaderByte b s))
      ∨ (s.phase = .hdr ∧ s.eosSeen = false ∧ s.hdrCnt = 15 ∧ magicOK (storeHeaderByte b s).hdrBuf = false
          ∧ t = raise .invalidMagic (magicInfo (storeHeaderByte b s).hdrBuf) (storeHeaderByte b s))
      ∨ (s.phase = .hdr ∧ s.eosSeen = false ∧ s.hdrCnt = 15 ∧ magicOK (storeHeaderByte b s).hdrBuf = true
          ∧ t = respond .ok 0 (latch (headerFields (storeHeaderByte b s).hdrBuf) (storeHeaderByte b s)))
      ∨ (∃ d, s.phase = .prg ∧ s.eosSeen = false ∧ s.decoded = some d
          ∧ t = respond .ok 1 (withRegion .prg (d.takePrg b) s))
      ∨ (∃ d, s.phase = .chr ∧ s.eosSeen = false ∧ s.decoded = some d
          ∧ t = respond .ok 2 (withRegion .chr (d.takeChr b) s))
      ∨ (s.phase = .done ∧ s.eosSeen = false ∧ t = respond .ok 3 s) := by
  by_cases hp : s.phase = .error
  · rw [execPush_aborted hp] at h; cases h; exact .inl ⟨hp, rfl⟩
  by_cases he : s.eosSeen = true
  · rw [execPush_afterEos hp he] at h; cases h; exact .inr (.inl ⟨hp, he, rfl⟩)
  have he' : s.eosSeen = false := by simpa using he
  rcases hph : s.phase with _ | _ | _ | _ | _
  · rw [execPush_hdr hph he'] at h
    rcases Nat.lt_trichotomy s.hdrCnt.toNat 15 with h15 | h15 | h15
    · rw [pushHeader_early h15] at h; cases h; exact .inr (.inr (.inl ⟨rfl, he', h15, rfl⟩))
    · have hc : s.hdrCnt = 15 := BitVec.eq_of_toNat_eq h15
      rw [pushHeader_last hc] at h
      cases h
      by_cases hm : magicOK (storeHeaderByte b s).hdrBuf = true
      · exact .inr (.inr (.inr (.inr (.inl ⟨rfl, he', hc, hm, finishHeader_good hm⟩))))
      · have hm' : magicOK (storeHeaderByte b s).hdrBuf = false := by simpa using hm
        exact .inr (.inr (.inr (.inl ⟨rfl, he', hc, hm', finishHeader_bad hm'⟩)))
    · rw [pushHeader_full h15] at h; cases h
  · rcases hd : s.decoded with _ | d
    · simp [execPush, unlessError, pushByPhase, pushPrg, hph, he', hd] at h
    · rw [execPush_prg hph he' hd] at h; cases h
      exact .inr (.inr (.inr (.inr (.inr (.inl ⟨d, rfl, he', rfl, rfl⟩)))))
  · rcases hd : s.decoded with _ | d
    · simp [execPush, unlessError, pushByPhase, pushChr, hph, he', hd] at h
    · rw [execPush_chr hph he' hd] at h; cases h
      exact .inr (.inr (.inr (.inr (.inr (.inr (.inl ⟨d, rfl, he', rfl, rfl⟩))))))
  · rw [execPush_done hph he'] at h; cases h
    exact .inr (.inr (.inr (.inr (.inr (.inr (.inr ⟨rfl, he', rfl⟩))))))
  · exact absurd hph hp

theorem execEos_cases {s t : State} (h : execEos s = .next t) :
    (s.phase = .error ∧ t = respond .aborted 0 s)
      ∨ (s.phase = .hdr ∧ t = raise .truncatedInput (s.hdrCnt.setWidth 32) { s with eosSeen := true })
      ∨ ((s.phase = .prg ∨ s.phase = .chr ∨ s.phase = .done)
          ∧ t = respond .ok 0 { s with eosSeen := true, phase := .done }) := by
  unfold execEos at h
  rcases hp : s.phase <;> simp [unlessError, eosByPhase, hp] at h <;> subst h <;> simp [respond, hp]

theorem execRdreg_cases {idx : Byte} {s t : State} (h : execRdreg idx s = .next t) :
    (Reg.ofIndex idx = none ∧ t = raise .illegalCommand (encode (.rdreg idx)) s)
      ∨ (∃ r v, Reg.ofIndex idx = some r ∧ s.regValue r = some v ∧ s.mayRead r = true ∧ t = respond .ok v s)
      ∨ (∃ r, Reg.ofIndex idx = some r ∧ r.group = .decoded ∧ t = raise .notDecoded (r.index.setWidth 32) s) := by
  unfold execRdreg at h
  split at h
  · next hn => cases h; exact .inl ⟨hn, rfl⟩
  · next r hr =>
    cases h
    rcases readReg_cases r s with ⟨v, h1, h2, h3⟩ | ⟨h1, h2⟩
    · exact .inr (.inl ⟨r, v, hr, h1, h2, h3⟩)
    · exact .inr (.inr ⟨r, hr, h1, h2⟩)

theorem execGetbit_cases {pos : Int} {b : Byte} {s t : State} (h : execGetbit pos b s = .next t) :
    (s.phase = .error ∧ t = respond .aborted 0 s)
      ∨ (s.phase ≠ .error ∧ 0 ≤ pos ∧ pos ≤ 7 ∧ t = respond .ok ((bitAt b pos.toNat).setWidth 32) s)
      ∨ (s.phase ≠ .error ∧ (pos < 0 ∨ 7 < pos) ∧ t = raise .invalidBitPosition (BitVec.ofInt 32 pos) s) := by
  by_cases hp : s.phase = .error
  · simp [execGetbit, hp] at h; exact .inl ⟨hp, h.symm⟩
  · simp only [execGetbit, unlessError_of_ne hp] at h
    by_cases hr : pos < 0 ∨ 7 < pos
    · rw [getBit_outOfRange hr] at h; cases h; exact .inr (.inr ⟨hp, hr, rfl⟩)
    · rw [getBit_inRange (by omega) (by omega)] at h; cases h
      exact .inr (.inl ⟨hp, by omega, by omega, rfl⟩)

theorem execMapc_cases {f6 f7 : Byte} {s t : State} (h : execMapc f6 f7 s = .next t) :
    (s.phase = .error ∧ t = respond .aborted 0 s) ∨ (s.phase ≠ .error ∧ t = respond .ok (mapperWord f6 f7) s) := by
  by_cases hp : s.phase = .error
  · simp [execMapc, hp] at h; exact .inl ⟨hp, h.symm⟩
  · simp [execMapc, hp] at h; exact .inr ⟨hp, h.symm⟩

theorem execSizc_cases {sel : Region} {n : Byte} {s t : State} (h : execSizc sel n s = .next t) :
    (s.phase = .error ∧ t = respond .aborted 0 s) ∨ (s.phase ≠ .error ∧ t = respond .ok (sizeCalc sel n) s) := by
  by_cases hp : s.phase = .error
  · simp [execSizc, hp] at h; exact .inl ⟨hp, h.symm⟩
  · simp [execSizc, hp] at h; exact .inr ⟨hp, h.symm⟩

theorem execClear_eq (s : State) : execClear s = .next (respond .ok 0 (clearBlock s)) := rfl

end Sys2Proof.Machine
end

