-- ==== Sys2Proof/Laws/PerInstr.lean ====
section
/-!
SUPPORT. Statements made per instruction: each encoded instruction is selected by its own row of the opcode map
(30_encoding.md R93).
-/

namespace Sys2Proof.Laws.EncodedRow

open Sys2Proof

/-- The word of the instruction is selected by a row of the opcode map that carries its mnemonic. -/
def Statement (i : Instr) : Prop := ∃ r ∈ opcodeTable, r.mnemonic = i.mnemonic ∧ r.selects (encode i) = true

theorem push (b : Byte) : Statement (.push b) := by
  refine ⟨⟨"PUSH", 0x10000000, 0xFFFFFF00⟩, by simp [opcodeTable], rfl, ?_⟩
  simp only [OpcodeRow.selects, beq_iff_eq, encode]
  ext k hk; interval_cases k <;> simp

theorem eos : Statement .eos := by unfold Statement; decide

theorem rdreg (idx : Byte) : Statement (.rdreg idx) := by
  refine ⟨⟨"RDREG", 0x30000000, 0xFFFFFF00⟩, by simp [opcodeTable], rfl, ?_⟩
  simp only [OpcodeRow.selects, beq_iff_eq, encode]
  ext k hk; interval_cases k <;> simp

theorem getbit (pos : Int) (b : Byte) : Statement (.getbit pos b) := by
  refine ⟨⟨"GETBIT", 0x40000000, 0xFFFF0000⟩, by simp [opcodeTable], rfl, ?_⟩
  simp only [OpcodeRow.selects, beq_iff_eq, encode]
  ext k hk; interval_cases k <;> simp

theorem mapc (f6 f7 : Byte) : Statement (.mapc f6 f7) := by
  refine ⟨⟨"MAPC", 0x50000000, 0xFFFF0000⟩, by simp [opcodeTable], rfl, ?_⟩
  simp only [OpcodeRow.selects, beq_iff_eq, encode]
  ext k hk; interval_cases k <;> simp

theorem sizc (sel : Region) (n : Byte) : Statement (.sizc sel n) := by
  refine ⟨⟨"SIZC", 0x60000000, 0xFFFFFE00⟩, by simp [opcodeTable], rfl, ?_⟩
  simp only [OpcodeRow.selects, beq_iff_eq, encode]
  cases sel <;> ext k hk <;> interval_cases k <;> simp [selBit]

theorem clear : Statement .clear := by unfold Statement; decide

end Sys2Proof.Laws.EncodedRow
end

