-- ==== Sys2Proof/Tests/Slice0.lean ====
section
/-!
SUPPORT. The model's own tests: words written out from 30_encoding.md and the vectors of 95_test_vectors.md, and for each
statement with hypotheses a state and operands that meet them.
-/

namespace Sys2Proof.Tests

open Sys2Proof Sys2Proof.Machine

/-! ### Small states -/

/-- The state a step answers, if it answers one. -/
def stateAfter : Result → Option State
  | .next t => some t
  | .fault _ => none
  | .refused _ => none

/-- The response of a step. -/
def answerOf (r : Result) : Option Response := (stateAfter r).bind State.resp

/-- The header of 95_test_vectors.md L1-7. -/
def goodHeader : Header :=
  #v[0x4E, 0x45, 0x53, 0x1A, 0x01, 0x01, 0x01, 0x00, 0x00, 0x00, 0x00, 0x00, 0x00, 0x00, 0x00, 0x00]

/-- The header of 95_test_vectors.md L1-2. -/
def badHeader : Header :=
  #v[0x4E, 0x45, 0x53, 0x00, 0x01, 0x00, 0x00, 0x00, 0x00, 0x00, 0x00, 0x00, 0x00, 0x00, 0x00, 0x00]

/-- Fifteen bytes of the header have arrived. -/
def fifteen (h : Header) : State := { State.reset with hdrBuf := h, hdrCnt := 15 }

/-- The group latched from the good header. -/
def goodGroup : DecodedGroup := latchedGroup (headerFields goodHeader)

/-- The good header has been latched. -/
def prgState : State :=
  { State.reset with phase := .prg, hdrBuf := goodHeader, hdrCnt := 16, hdrValid := true, decoded := some goodGroup }

/-- The PRG region of the good header is complete. -/
def chrState : State := { prgState with phase := .chr, decoded := some { goodGroup with prgCnt := 0x4000 } }

/-- The PRG region lacks one byte. -/
def lastPrgState : State := { prgState with decoded := some { goodGroup with prgCnt := 0x3FFF } }

/-- Both regions of the good header are complete, before EOS. -/
def doneState : State :=
  { prgState with phase := .done, decoded := some { goodGroup with prgCnt := 0x4000, chrCnt := 0x2000 } }

/-- An empty stream has ended. -/
def errorState : State :=
  { State.reset with phase := .error, eosSeen := true, err := some .truncatedInput }

/-- The state in which the host's only action is a command word. -/
def State.issuing (s : State) (w : Word) : State := { s with issue := [.command w] }

/-! ### Decoding: words from 30_encoding.md R91 to R95 -/

theorem test_decode_push : decode 0x1000004E = .ok (.push 0x4E) := by decide
theorem test_decode_eos : decode 0x20000000 = .ok .eos := by decide
theorem test_decode_rdreg : decode 0x300000FF = .ok (.rdreg 0xFF) := by decide
theorem test_decode_getbit_negative : decode 0x400080A5 = .ok (.getbit (-128) 0xA5) := by decide
theorem test_decode_getbit_positive : decode 0x40007F5A = .ok (.getbit 127 0x5A) := by decide
theorem test_decode_mapc : decode 0x50002010 = .ok (.mapc 0x10 0x20) := by decide
theorem test_decode_sizc_prg : decode 0x60000002 = .ok (.sizc .prg 2) := by decide
theorem test_decode_sizc_chr : decode 0x60000102 = .ok (.sizc .chr 2) := by decide
theorem test_decode_clear : decode 0xF0000000 = .ok .clear := by decide

theorem test_decode_reserved_opcodes :
    ∀ op ∈ [0x0, 0x7, 0x8, 0x9, 0xA, 0xB, 0xC, 0xD, 0xE],
      decode (BitVec.ofNat 32 op <<< 28) = .error .reservedOpcode := by decide

/-- The lowest and the highest reserved bit of each format. -/
theorem test_decode_reserved_bits :
    ∀ w ∈ ([0x10000100, 0x18000000, 0x20000001, 0x28000000, 0x30000100, 0x38000000, 0x40010000, 0x48000000, 0x50010000,
            0x58000000, 0x60000200, 0x68000000, 0xF0000001, 0xF8000000] : List Word),
      decode w = .error .reservedBits := by
  simp only [List.forall_mem_cons]
  refine ⟨?_, ?_, ?_, ?_, ?_, ?_, ?_, ?_, ?_, ?_, ?_, ?_, ?_, ?_, by simp⟩ <;> decide

theorem test_decodeTableWord_cuts_at_the_rows_width :
    decodeTableWord 32 0x1F0000000 = some .clear ∧ decodeTableWord 32 0 = none := by decide

theorem test_withFetchWord_runs_the_word :
    step (State.reset.withFetchWord 32 0x1000004E) = exec (.push 0x4E) State.reset := rfl

/-! ### WellFormed: the one operand check -/

theorem test_wf_refuses_position_above_127 : Instr.wf (.getbit 128 0) = false := by decide
theorem test_wf_refuses_position_below_minus_128 : Instr.wf (.getbit (-129) 0) = false := by decide

/-! ### Values: vectors of the rules and of 95_test_vectors.md -/

/-- 40_header_decoder.md R127's two examples. -/
theorem test_unpack_examples :
    unpackFields 0x01 0x00 0x00 = 0x00000001 ∧ unpackFields 0x0F 0x0F 0xFF = 0x007F073F := by decide

/-- 40_header_decoder.md R128 and R129's examples. -/
theorem test_mapper_examples :
    composeMapper 0x10 0x00 = 0x01 ∧ composeMapper 0x00 0x10 = 0x10 ∧ composeMapper 0xF0 0xF0 = 0xFF
      ∧ mapperNamed 10 = true ∧ mapperNamed 11 = false ∧ mapperNamed 0xFF = false := by decide

/-- 40_header_decoder.md R122's example. -/
theorem test_magicInfo_example : packLe [0x4E, 0x45, 0x53, 0x1B] = 0x1B53454E := by decide

/-- 41_bank_extractor.md R168: the check sequence's first byte. -/
theorem test_crcStep_example : crcStep crcOnes 0x31 = 0x7C231048 := by decide

/-- The check value of 95_test_vectors.md section 2.6, `Crc32` of the ASCII digits 1 to 9. -/
theorem test_crc32_check_value :
    crc32 [0x31, 0x32, 0x33, 0x34, 0x35, 0x36, 0x37, 0x38, 0x39] = 0xCBF43926 := by decide +kernel

/-! ### Instructions: one step each -/

/-- L1-2: the 16th byte of a bad header answers (2, 0), with the four bytes in ERRINFO. -/
theorem test_push_bad_magic :
    answerOf (exec (.push 0x00) (fifteen badHeader)) = some ⟨.error .invalidMagic, 0⟩
      ∧ (stateAfter (exec (.push 0x00) (fifteen badHeader))).map State.errInfo = some 0x0053454E
      ∧ (stateAfter (exec (.push 0x00) (fifteen badHeader))).map State.statusWord = some 0x204 := by decide

/-- L1-7: the 16th byte of the good header latches it. -/
theorem test_push_good_magic :
    (stateAfter (exec (.push 0x00) (fifteen goodHeader))).bind (fun t => t.decoded.map fun d =>
      (t.phase, d.magic, d.mapper, d.fields, d.prgSize, d.chrSize))
      = some (.prg, 0x1A53454E, 0x100, 0x00000001, 0x4000, 0x2000) := by decide

/-- R195's example: EOS after 15 bytes is TruncatedInput with ERRINFO = 15. -/
theorem test_eos_truncated :
    answerOf (exec .eos (fifteen goodHeader)) = some ⟨.error .truncatedInput, 0⟩
      ∧ (stateAfter (exec .eos (fifteen goodHeader))).map State.errInfo = some 0xF
      ∧ (stateAfter (exec .eos (fifteen goodHeader))).map State.statusWord = some 0x114 := by decide

/-- R200's example: PRG_SIZE of a header with one bank. -/
theorem test_rdreg_prgSize : answerOf (exec (.rdreg 0x20) prgState) = some ⟨.ok, 16384⟩ := by decide

/-- L1-2: a decoded register before a decode is NotDecoded. -/
theorem test_rdreg_notDecoded :
    answerOf (exec (.rdreg 0x11) State.reset) = some ⟨.error .notDecoded, 0⟩
      ∧ (stateAfter (exec (.rdreg 0x11) State.reset)).map State.errInfo = some 0x11 := by decide

/-- L1-9. -/
theorem test_getbit_top_bit :
    answerOf (exec (.getbit 7 0x80) State.reset) = some ⟨.ok, 1⟩
      ∧ answerOf (exec (.getbit 7 0x7F) State.reset) = some ⟨.ok, 0⟩ := by decide

/-- L1-9. -/
theorem test_getbit_outside :
    answerOf (exec (.getbit 8 0xFF) State.reset) = some ⟨.error .invalidBitPosition, 0⟩
      ∧ (stateAfter (exec (.getbit 8 0xFF) State.reset)).map State.errInfo = some 8
      ∧ (stateAfter (exec (.getbit (-1) 0xFF) State.reset)).map State.errInfo = some 0xFFFFFFFF := by decide

/-- L1-4. -/
theorem test_mapc_examples :
    answerOf (exec (.mapc 0x10 0x00) State.reset) = some ⟨.ok, 0x101⟩
      ∧ answerOf (exec (.mapc 0x00 0x10) State.reset) = some ⟨.ok, 0x010⟩
      ∧ answerOf (exec (.mapc 0xF0 0xF0) State.reset) = some ⟨.ok, 0x0FF⟩ := by decide

/-- R173's corner cases. -/
theorem test_sizc_corners :
    answerOf (exec (.sizc .prg 255) State.reset) = some ⟨.ok, 0x003FC000⟩
      ∧ answerOf (exec (.sizc .chr 255) State.reset) = some ⟨.ok, 0x001FE000⟩
      ∧ answerOf (exec (.sizc .chr 0) State.reset) = some ⟨.ok, 0⟩ := by decide

/-- R205's example: CLEAR in phase ERROR answers (0, 0) and leaves STATUS = 0. -/
theorem test_clear_leaves_error :
    answerOf (exec .clear errorState) = some ⟨.ok, 0⟩
      ∧ (stateAfter (exec .clear errorState)).map State.statusWord = some 0 := by decide

/-- R193's example: the last PRG byte answers (0, 1) and leaves phase CHR. -/
theorem test_push_last_prg_byte :
    answerOf (exec (.push 0x00) lastPrgState) = some ⟨.ok, 1⟩
      ∧ (stateAfter (exec (.push 0x00) lastPrgState)).map State.phase = some .chr := by decide

/-- R132's example as assembler text, and R100's refusal of a HEADER without 16 operands. -/
theorem test_assembleText :
    assembleText "GETBIT -1, 0x80 ; the top bit".toList = some [0x4000FF80]
      ∧ assembleText "RDREG PRG_SIZE".toList = some [0x30000020]
      ∧ assembleText "HEADER 0x4E, 0x45".toList = none
      ∧ assembleText "PUSHS".toList = none ∧ assembleText "PUSHS 0, 256".toList = none
      ∧ assembleText ".word -1".toList = none := by decide

/-! ### Witnesses: states and operands that meet the statements' hypotheses -/

theorem witness_prgState_inv : BlockInv prgState where
  valid := by decide
  cnt_le := by decide
  error_iff := by decide
  hdr := by decide
  undecoded := by decide
  group := by
    intro d h
    cases h
    exact ⟨by decide, by decide, by decide, ⟨by decide, by decide, by decide⟩, by decide, by decide⟩
  info := rfl

theorem witness_chrState_inv : BlockInv chrState where
  valid := by decide
  cnt_le := by decide
  error_iff := by decide
  hdr := by decide
  undecoded := by decide
  group := by
    intro d h
    cases h
    exact ⟨by decide, by decide, by decide, ⟨by decide, by decide, by decide⟩, by decide, by decide, by decide⟩
  info := rfl

theorem witness_doneState_inv : BlockInv doneState where
  valid := by decide
  cnt_le := by decide
  error_iff := by decide
  hdr := by decide
  undecoded := by decide
  group := by
    intro d h
    cases h
    exact ⟨by decide, by decide, by decide, ⟨by decide, by decide, by decide⟩, .inr (by decide)⟩
  info := rfl

theorem witness_errorState_inv : BlockInv errorState where
  valid := by decide
  cnt_le := by decide
  error_iff := by decide
  hdr := by decide
  undecoded := by decide
  group := by intro d h; cases h
  info := ⟨by decide, by decide, by decide, by decide⟩

theorem witness_reset_inv : BlockInv State.reset where
  valid := by decide
  cnt_le := by decide
  error_iff := by decide
  hdr := by decide
  undecoded := by decide
  group := by intro d h; cases h
  info := rfl

theorem witness_wf_at_both_ends : Instr.wf (.getbit (-128) 0xFF) = true ∧ Instr.wf (.getbit 127 0x00) = true := by decide

theorem witness_encodeOfDecode :
    decode 0x40008000 = .ok (.getbit (-128) 0) ∧ decode 0x600001FF = .ok (.sizc .chr 255) := by decide

/-- Each clause of `ReservedWordRaisesIllegalCommand`, at the ends of its range. -/
theorem witness_reservedWord :
    (0x00000000 : Word).extractLsb' 28 4 = 0x0
      ∧ 7 ≤ ((0x70000000 : Word).extractLsb' 28 4).toNat ∧ ((0xE0000000 : Word).extractLsb' 28 4).toNat ≤ 14
      ∧ ((0x10000100 : Word).extractLsb' 28 4 = 0x1 ∧ (0x10000100 : Word).extractLsb' 8 20 ≠ 0)
      ∧ ((0x28000000 : Word).extractLsb' 28 4 = 0x2 ∧ (0x28000000 : Word).extractLsb' 0 28 ≠ 0)
      ∧ ((0x38000000 : Word).extractLsb' 28 4 = 0x3 ∧ (0x38000000 : Word).extractLsb' 8 20 ≠ 0)
      ∧ ((0x40010000 : Word).extractLsb' 28 4 = 0x4 ∧ (0x40010000 : Word).extractLsb' 16 12 ≠ 0)
      ∧ ((0x58000000 : Word).extractLsb' 28 4 = 0x5 ∧ (0x58000000 : Word).extractLsb' 16 12 ≠ 0)
      ∧ ((0x60000200 : Word).extractLsb' 28 4 = 0x6 ∧ (0x60000200 : Word).extractLsb' 9 19 ≠ 0)
      ∧ ((0xF0000001 : Word).extractLsb' 28 4 = 0xF ∧ (0xF0000001 : Word).extractLsb' 0 28 ≠ 0)
      ∧ (State.issuing errorState 0x70000000).issue = .command 0x70000000 :: [] := by decide

theorem witness_stepRuns :
    (State.issuing prgState 0x1000004E).issue = .command 0x1000004E :: []
      ∧ Instr.wf (.push 0x4E) = true ∧ decode 0x1000004E = .ok (.push 0x4E) := by decide

/-- The three clauses of `DispatchDecodesThenGatesThenPerforms`. -/
theorem witness_dispatch :
    decode 0x70000000 = .error .reservedOpcode
      ∧ (decode 0x20000000 = .ok .eos ∧ (State.issuing errorState 0x20000000).phase = .error
          ∧ (∀ idx, Instr.eos ≠ .rdreg idx) ∧ Instr.eos ≠ .clear)
      ∧ (decode 0x20000000 = .ok .eos ∧ (State.issuing prgState 0x20000000).phase ≠ .error)
      ∧ (decode 0xF0000000 = .ok .clear ∧ (State.issuing errorState 0xF0000000).phase = .error) := by
  refine ⟨by decide, ⟨by decide, by decide, ?_, by decide⟩, by decide, by decide⟩
  intro idx h
  cases h

theorem witness_idle : State.reset.issue = [] := rfl

/-- Both premises of `EveryCommandIsAnswered`, each where it says something. -/
theorem witness_everyCommandIsAnswered :
    ((fifteen goodHeader).phase = .hdr ∧ (fifteen goodHeader).hdrCnt.toNat < 16)
      ∧ (prgState.phase = .prg ∧ prgState.decoded.isSome = true) ∧ (chrState.phase = .chr ∧ chrState.decoded.isSome = true)
      ∧ ∃ t, step (State.issuing prgState 0x20000000) = .next t :=
  ⟨by decide, by decide, by decide, _, rfl⟩

theorem witness_assertReset :
    (AtReset State.reset ∧ Reg.group .magic = .decoded ∧ Reg.group .chrCrc = .decoded)
      ∧ ∃ t, step { errorState with issue := [.assertReset] } = .next t :=
  ⟨⟨⟨rfl, rfl, rfl, rfl, rfl, rfl, rfl⟩, rfl, rfl⟩, _, rfl⟩

/-- Positions on both sides of each bound of `GetbitAnswersTheBitOrRaises`, in a phase other than ERROR. -/
theorem witness_getbit :
    State.reset.phase ≠ .error ∧ doneState.phase ≠ .error
      ∧ ((0 : Int) ≤ 0 ∧ (0 : Int) ≤ 7) ∧ ((0 : Int) ≤ 7 ∧ (7 : Int) ≤ 7)
      ∧ ((-1 : Int) < 0 ∨ (7 : Int) < -1) ∧ ((8 : Int) < 0 ∨ (7 : Int) < 8) := by decide

theorem witness_mapc_and_sizc : State.reset.phase ≠ .error ∧ prgState.phase ≠ .error := by decide

theorem witness_mapperNames :
    2 ≤ (2 : Byte).toNat ∧ (10 : Byte).toNat ≤ 10 ∧ 10 < (11 : Byte).toNat ∧ 10 < (255 : Byte).toNat := by decide

/-- No region byte has been taken yet. -/
theorem witness_regionPush :
    prgState.eosSeen = false ∧ prgState.decoded = some goodGroup ∧ prgState.phase = .prg ∧ goodGroup.prgCrc = crc32 []
      ∧ chrState.eosSeen = false ∧ chrState.phase = .chr
      ∧ chrState.decoded = some { goodGroup with prgCnt := 0x4000 } ∧ goodGroup.chrCrc = crc32 [] := by decide

theorem witness_rdreg_decoded : prgState.hdrValid = true ∧ prgState.decoded = some goodGroup := by decide

/-- The first and the last index of each range of 10_state.md R44, and their neighbours outside. -/
theorem witness_rdreg_index_ranges :
    (∀ idx ∈ ([0x03, 0x0F, 0x1B, 0x1F, 0x26, 0xFF] : List Byte),
      ¬ (idx.toNat ≤ 0x02 ∨ (0x10 ≤ idx.toNat ∧ idx.toNat ≤ 0x1A) ∨ (0x20 ≤ idx.toNat ∧ idx.toNat ≤ 0x25)))
      ∧ (∀ idx ∈ ([0x00, 0x02, 0x10, 0x1A, 0x20, 0x25] : List Byte),
        idx.toNat ≤ 0x02 ∨ (0x10 ≤ idx.toNat ∧ idx.toNat ≤ 0x1A) ∨ (0x20 ≤ idx.toNat ∧ idx.toNat ≤ 0x25)) := by decide

theorem witness_rdreg_before_decode :
    State.reset.hdrValid = false
      ∧ ∀ idx ∈ ([0x10, 0x1A, 0x20, 0x25] : List Byte),
        (0x10 ≤ idx.toNat ∧ idx.toNat ≤ 0x1A) ∨ (0x20 ≤ idx.toNat ∧ idx.toNat ≤ 0x25) := by decide

theorem witness_registersFit :
    BlockInv prgState ∧ ∃ t, exec (.rdreg (Reg.index .prgSize)) prgState = .next t ∧ t.resp = some ⟨.ok, 0x4000⟩ :=
  ⟨witness_prgState_inv, _, rfl, by decide⟩

theorem witness_eos_phases :
    State.reset.phase = .hdr ∧ prgState.phase = .prg ∧ chrState.phase = .chr ∧ doneState.phase = .done
      ∧ errorState.phase = .error ∧ decode 0x20000000 = .ok .eos := by decide

theorem witness_push_early :
    State.reset.phase = .hdr ∧ State.reset.eosSeen = false ∧ State.reset.hdrCnt.toNat < 15
      ∧ ({ State.reset with hdrCnt := 14 } : State).hdrCnt.toNat < 15 := by decide

theorem witness_push_bad_magic :
    (fifteen badHeader).phase = .hdr ∧ (fifteen badHeader).eosSeen = false ∧ (fifteen badHeader).hdrCnt = 15
      ∧ ¬ ((fifteen badHeader).hdrBuf[0] = 0x4E ∧ (fifteen badHeader).hdrBuf[1] = 0x45
          ∧ (fifteen badHeader).hdrBuf[2] = 0x53 ∧ (fifteen badHeader).hdrBuf[3] = 0x1A) := by decide

theorem witness_push_good_magic :
    (fifteen goodHeader).phase = .hdr ∧ (fifteen goodHeader).eosSeen = false ∧ (fifteen goodHeader).hdrCnt = 15
      ∧ ((fifteen goodHeader).hdrBuf[0] = 0x4E ∧ (fifteen goodHeader).hdrBuf[1] = 0x45
          ∧ (fifteen goodHeader).hdrBuf[2] = 0x53 ∧ (fifteen goodHeader).hdrBuf[3] = 0x1A) := by decide

theorem witness_push_done : doneState.phase = .done ∧ doneState.eosSeen = false := by decide

theorem witness_push_after_eos :
    ({ doneState with eosSeen := true } : State).phase ≠ .error
      ∧ ({ doneState with eosSeen := true } : State).eosSeen = true := by decide

theorem witness_streamOffset :
    (BlockInv State.reset ∧ State.reset.phase = .hdr) ∧ (BlockInv prgState ∧ prgState.phase = .prg)
      ∧ (BlockInv chrState ∧ chrState.phase = .chr) :=
  ⟨⟨witness_reset_inv, rfl⟩, ⟨witness_prgState_inv, rfl⟩, ⟨witness_chrState_inv, rfl⟩⟩

theorem witness_stepKeepsTheInvariant :
    ∃ t, step { prgState with issue := [.command 0x10000000] } = .next t ∧ t.decoded ≠ prgState.decoded :=
  ⟨_, rfl, by decide⟩

/-- Both clauses of `LatchedErrorIsSticky`: a PUSH, and CLEAR. -/
theorem witness_sticky :
    errorState.phase = .error ∧ errorState.err.isSome = true
      ∧ HostAct.endsInvocation (.command 0x10000000) = false ∧ HostAct.endsInvocation (.command 0xF0000000) = true
      ∧ (∃ t, step (State.issuing errorState 0x10000000) = .next t)
      ∧ ∃ t, step (State.issuing errorState 0xF0000000) = .next t :=
  ⟨by decide, by decide, by decide, by decide, ⟨_, rfl⟩, ⟨_, rfl⟩⟩

theorem witness_phaseOnlyMovesForward :
    (∀ a, (State.issuing prgState 0x20000000).issue.head? = some a → a.endsInvocation = false)
      ∧ ∃ t, step (State.issuing prgState 0x20000000) = .next t ∧ t.phase = .done := by
  refine ⟨?_, _, rfl, by decide⟩
  intro a h
  cases h
  decide

theorem witness_decodedFieldsAreImmutable :
    BlockInv chrState ∧ chrState.decoded = some { goodGroup with prgCnt := 0x4000 }
      ∧ HostAct.endsInvocation (.command 0x10000001) = false
      ∧ ∃ t, step (State.issuing chrState 0x10000001) = .next t :=
  ⟨witness_chrState_inv, by decide, by decide, _, rfl⟩

theorem witness_readsAndUtilities :
    (∀ b, Instr.rdreg 0x10 ≠ .push b)
      ∧ (∃ t, exec (.rdreg 0x10) prgState = .next t ∧ t.resp = some ⟨.ok, 0x1A53454E⟩)
      ∧ ∃ t, exec (.getbit 0 1) errorState = .next t ∧ t.resp = some ⟨.aborted, 0⟩ := by
  refine ⟨?_, ⟨_, rfl, by decide⟩, ⟨_, rfl, by decide⟩⟩
  intro b h
  cases h

theorem witness_errorAnswer :
    (State.reset.err = none ∧ errorState.err ≠ none)
      ∧ (∃ t, exec (.rdreg 0x10) State.reset = .next t ∧ t.resp = some ⟨.error .notDecoded, 0⟩)
      ∧ ∃ t, exec (.rdreg 0x03) errorState = .next t ∧ t.resp = some ⟨.error .illegalCommand, 0⟩ :=
  ⟨by decide, ⟨_, rfl, by decide⟩, ⟨_, rfl, by decide⟩⟩

/-- Two different buffers of which no byte has been received. -/
theorem witness_unreceived :
    SameButUnreceived State.reset { State.reset with hdrBuf := goodHeader }
      ∧ State.reset.hdrBuf ≠ goodHeader ∧ ∃ t, step State.reset = .next t :=
  ⟨⟨rfl, fun _ _ h => absurd h (by decide +revert)⟩, by decide, _, rfl⟩

theorem witness_report : BlockInv doneState ∧ doneState.phase = .done := ⟨witness_doneState_inv, rfl⟩

theorem witness_assembledWords :
    (∀ w, AsmLine.pushN 2 0xFF ≠ .word w) ∧ assemble (.pushN 2 0xFF) = some [0x100000FF, 0x100000FF] := by
  refine ⟨?_, by decide⟩
  intro w h
  cases h

/-- The script of a host that interleaves nothing. -/
theorem plain_script (bs : List Byte) : StreamScript bs (bs.map pushAct ++ [eosAct]) := by
  induction bs with
  | nil => exact .eos (by simp)
  | cons b bs ih => exact .push b ih

/-- Reads of STATUS and a GETBIT around one byte and EOS. -/
theorem witness_shortStream_interleaved :
    StreamScript [0x4E] [.command 0x30000000, pushAct 0x4E, .command 0x40000780, eosAct, .command 0x30000001] :=
  .quiet (by decide) (.push _ (.quiet (by decide) (.eos (by decide))))

/-- The state a host starts from after a reset, with its script, whatever the header buffer holds. -/
def starting (h : Header) (acts : List HostAct) : State := { State.reset with hdrBuf := h, issue := acts }

theorem starting_atReset (h : Header) (acts : List HostAct) : AtReset (starting h acts) :=
  ⟨rfl, rfl, rfl, rfl, rfl, rfl, rfl⟩

/-- The longest stream of case 1, with a buffer that is not zero. -/
theorem witness_shortStream :
    StreamScript (goodHeader.toList.take 15) ((goodHeader.toList.take 15).map pushAct ++ [eosAct])
      ∧ AtReset (starting badHeader ((goodHeader.toList.take 15).map pushAct ++ [eosAct]))
      ∧ (goodHeader.toList.take 15).length < 16 :=
  ⟨plain_script _, starting_atReset _ _, by decide⟩

/-- The shortest streams of case 2, with a buffer that holds a good header. -/
theorem witness_badStream :
    StreamScript badHeader.toList (badHeader.toList.map pushAct ++ [eosAct])
      ∧ AtReset (starting goodHeader (badHeader.toList.map pushAct ++ [eosAct]))
      ∧ 16 ≤ badHeader.toList.length ∧ badHeader.toList.take 4 ≠ [0x4E, 0x45, 0x53, 0x1A] :=
  ⟨plain_script _, starting_atReset _ _, by decide, by decide⟩

/-- A good header with two region bytes: a short PRG region. -/
theorem witness_goodStream :
    StreamScript (goodHeader.toList ++ [1, 2]) ((goodHeader.toList ++ [1, 2]).map pushAct ++ [eosAct])
      ∧ AtReset (starting badHeader ((goodHeader.toList ++ [1, 2]).map pushAct ++ [eosAct]))
      ∧ 16 ≤ (goodHeader.toList ++ [1, 2]).length
      ∧ (goodHeader.toList ++ [1, 2]).take 4 = [0x4E, 0x45, 0x53, 0x1A] :=
  ⟨plain_script _, starting_atReset _ _, by decide, by decide⟩

/-- Bytes just outside the range, among legal ones. -/
theorem witness_pseudo_out_of_range :
    ((-1 : Int) ∈ [0, -1, 255] ∧ ((-1 : Int) < 0 ∨ (255 : Int) < -1))
      ∧ ((256 : Int) ∈ [0, 255, 256] ∧ ((256 : Int) < 0 ∨ (255 : Int) < 256)) ∧ ([0x4E] : List Byte) ≠ [] := by decide

end Sys2Proof.Tests
end

/-!
SUPPORT. The invariant of the block: what it depends on, the states it starts from, and how the shared operations keep it.
-/

namespace Sys2Proof.Machine

open Sys2Proof

variable {s t : State} {d : DecodedGroup} {e : ErrorCode} {info : Word} {b : Byte}

/-! ### The registers alone -/

@[simp] theorem respond_regs (st : Status) (val : Word) (s : State) : (respond st val s).regs = s.regs := rfl

@[simp] theorem idle_regs (s : State) : (idle s).regs = s.regs := rfl

@[simp] theorem withIssue_regs (s : State) (rest : List HostAct) : ({ s with issue := rest } : State).regs = s.regs := rfl

/-- The invariant says nothing of the host's list and the response port. -/
theorem BlockInv.withPort (h : BlockInv s) (acts : List HostAct) (r : Option Response) :
    BlockInv { s with issue := acts, resp := r } where
  valid := h.valid
  cnt_le := h.cnt_le
  error_iff := h.error_iff
  hdr := h.hdr
  undecoded := h.undecoded
  group d hd :=
    have hg := h.group d hd
    ⟨hg.full, hg.magic, hg.latched, hg.counts, hg.phase⟩
  info := h.info

/-- A state with the registers of an invariant state is one. -/
theorem BlockInv.of_regs (h : BlockInv s) (hr : t.regs = s.regs) : BlockInv t := by
  have ht : t = { s.regs with issue := t.issue, resp := t.resp } := by rw [← hr]; rfl
  rw [ht]
  exact h.withPort t.issue t.resp

theorem BlockInv.after_respond (h : BlockInv s) (st : Status) (val : Word) : BlockInv (respond st val s) :=
  h.of_regs (respond_regs st val s)

/-! ### The reset values -/

theorem AtReset.blockInv (h : AtReset t) : BlockInv t where
  valid := by simp [h.valid, h.noValue]
  cnt_le := by simp [h.cnt]
  error_iff := by simp [h.phase, h.err]
  hdr _ := ⟨by simp [h.cnt], h.eos, h.noValue⟩
  undecoded _ := .inl h.phase
  group d hd := by simp [h.noValue] at hd
  info := by simp [errInfoFits, h.err, h.info]

theorem reset_atReset : AtReset State.reset := ⟨rfl, rfl, rfl, rfl, rfl, rfl, rfl⟩

theorem clearBlock_atReset (s : State) : AtReset (clearBlock s) := ⟨rfl, rfl, rfl, rfl, rfl, rfl, rfl⟩

/-- The response port is no register of R47. -/
theorem AtReset.after_respond (h : AtReset t) (st : Status) (val : Word) : AtReset (respond st val t) :=
  ⟨h.phase, h.valid, h.eos, h.err, h.info, h.cnt, h.noValue⟩

/-! ### What the phase says in a state of the invariant -/

theorem BlockInv.err_eq_none (h : BlockInv s) (hp : s.phase ≠ .error) : s.err = none := by
  simpa [hp] using h.error_iff

theorem BlockInv.errInfo_eq_zero (h : BlockInv s) (hp : s.phase ≠ .error) : s.errInfo = 0 := by
  simpa [errInfoFits, h.err_eq_none hp] using h.info

/-- After the header and before an error the group holds values. -/
theorem BlockInv.exists_group (h : BlockInv s) (hh : s.phase ≠ .hdr) (he : s.phase ≠ .error) :
    ∃ d, s.decoded = some d ∧ GroupInv s d := by
  rcases hd : s.decoded with _ | d
  · rcases h.undecoded hd with hp | hp
    · exact absurd hp hh
    · exact absurd hp he
  · exact ⟨d, rfl, h.group d hd⟩

theorem GroupInv.phase_ne_hdr (h : GroupInv s d) : s.phase ≠ .hdr := by
  intro hp; simpa [phaseFits, hp] using h.phase

theorem GroupInv.prg_short (h : GroupInv s d) (hp : s.phase = .prg) :
    d.prgCnt.toNat < d.prgSize.toNat ∧ s.eosSeen = false := by
  simpa [phaseFits, hp] using h.phase

theorem GroupInv.chr_short (h : GroupInv s d) (hp : s.phase = .chr) :
    d.prgCnt = d.prgSize ∧ d.chrCnt.toNat < d.chrSize.toNat ∧ s.eosSeen = false := by
  simpa [phaseFits, hp] using h.phase

/-! ### The error entry -/

/-- A first error is latched with its information: what `ERRINFO` has to fit is the raised code. -/
theorem errInfoFits_raise (he : s.err = none) :
    errInfoFits (raise e info s) ↔ errInfoFits { s with err := some e, errInfo := info } := by
  simp [errInfoFits, he]

/-- What `raise` needs of the state it enters from, which need not be of the invariant itself. -/
theorem blockInv_raise (hv : s.hdrValid = s.decoded.isSome) (hc : s.hdrCnt.toNat ≤ 16)
    (hg : ∀ d, s.decoded = some d → GroupInv (raise e info s) d) (hi : errInfoFits (raise e info s)) :
    BlockInv (raise e info s) where
  valid := by simpa using hv
  cnt_le := by simpa using hc
  error_iff := by simp
  hdr hp := by simp at hp
  undecoded _ := .inr (raise_phase e info s)
  group d hd := hg d (by simpa using hd)
  info := hi

theorem GroupInv.after_raise (h : GroupInv s d) (e : ErrorCode) (info : Word) : GroupInv (raise e info s) d where
  full := by simpa using h.full
  magic := by simpa using h.magic
  latched := by simpa using h.latched
  counts := h.counts
  phase := by simp [phaseFits]

/-- `raise` from a state of the invariant: only a first error has to fit its information. -/
theorem BlockInv.after_raise (h : BlockInv s) (hi : s.err = none → errInfoFits (raise e info s)) :
    BlockInv (raise e info s) := by
  by_cases he : s.err = none
  · exact blockInv_raise h.valid h.cnt_le (fun d hd => (h.group d hd).after_raise e info) (hi he)
  · have hs : s.err.isSome = true := Option.isSome_iff_ne_none.mpr he
    exact h.of_regs (raise_regs_of_latched e info (h.error_iff.mpr hs) hs)

theorem BlockInv.after_illegalCommand (h : BlockInv s) (w : Word) : BlockInv (raise .illegalCommand w s) :=
  h.after_raise fun he => (errInfoFits_raise he).mpr trivial

/-! ### The region counters -/

theorem DecodedGroup.CountsInv.after_takePrg (h : d.CountsInv) (hlt : d.prgCnt.toNat < d.prgSize.toNat) (b : Byte) :
    (d.takePrg b).CountsInv where
  prg_le := by
    have := toNat_add_one_of_lt hlt
    simp only [takePrg_prgCnt, takePrg_prgSize]; omega
  chr_le := h.chr_le
  chr_after_prg hc := by
    have := congrArg BitVec.toNat (h.chr_after_prg hc)
    omega

theorem DecodedGroup.CountsInv.after_takeChr (h : d.CountsInv) (hp : d.prgCnt = d.prgSize)
    (hlt : d.chrCnt.toNat < d.chrSize.toNat) (b : Byte) : (d.takeChr b).CountsInv where
  prg_le := h.prg_le
  chr_le := by
    have := toNat_add_one_of_lt hlt
    simp only [takeChr_chrCnt, takeChr_chrSize]; omega
  chr_after_prg _ := hp

theorem latchedGroup_countsInv (dh : DecodedHeader) : (latchedGroup dh).CountsInv where
  prg_le := Nat.zero_le _
  chr_le := Nat.zero_le _
  chr_after_prg h := absurd h (Nat.lt_irrefl 0)

theorem toNat_lt_of_le_of_ne {x y : Word} (h : x.toNat ≤ y.toNat) (hne : x ≠ y) : x.toNat < y.toNat :=
  Nat.lt_of_le_of_ne h fun he => hne (BitVec.eq_of_toNat_eq he)

/-- `Advance()` from PRG leaves a phase that fits the counters. -/
theorem phaseFits_advance_prg (hp : t.phase = advance .prg d) (he : t.eosSeen = false) (hc : d.CountsInv) :
    phaseFits t d := by
  rcases advance_prg_cases d with ⟨hprg, hchr, ha⟩ | ⟨hprg, hchr, ha⟩ | ⟨hprg, ha⟩ <;>
    simp only [phaseFits, hp, ha]
  · exact .inr ⟨hprg, hchr⟩
  · exact ⟨hprg, toNat_lt_of_le_of_ne hc.chr_le hchr, he⟩
  · exact ⟨toNat_lt_of_le_of_ne hc.prg_le hprg, he⟩

/-- `Advance()` from CHR, after a complete PRG region, leaves a phase that fits the counters. -/
theorem phaseFits_advance_chr (hp : t.phase = advance .chr d) (he : t.eosSeen = false) (hc : d.CountsInv)
    (hprg : d.prgCnt = d.prgSize) : phaseFits t d := by
  rcases advance_chr_cases d with ⟨hchr, ha⟩ | ⟨hchr, ha⟩ <;> simp only [phaseFits, hp, ha]
  · exact .inr ⟨hprg, hchr⟩
  · exact ⟨hprg, toNat_lt_of_le_of_ne hc.chr_le hchr, he⟩

theorem advance_prg_ne_error (d : DecodedGroup) : advance .prg d ≠ .error := by
  rcases advance_prg_cases d with ⟨-, -, ha⟩ | ⟨-, -, ha⟩ | ⟨-, ha⟩ <;> simp [ha]

theorem advance_chr_ne_error (d : DecodedGroup) : advance .chr d ≠ .error := by
  rcases advance_chr_cases d with ⟨-, ha⟩ | ⟨-, ha⟩ <;> simp [ha]

/-! ### States with a decoded group and no error -/

/-- With a group and no error, the invariant is what it says of the group. -/
theorem blockInv_of_group (hv : t.hdrValid = true) (hd : t.decoded = some d) (hp : t.phase ≠ .error) (he : t.err = none)
    (hi : t.errInfo = 0) (hg : GroupInv t d) : BlockInv t where
  valid := by simp [hv, hd]
  cnt_le := by simp [hg.full]
  error_iff := by simp [hp, he]
  hdr h := absurd h hg.phase_ne_hdr
  undecoded hn := by simp [hd] at hn
  group d' hd' := by
    obtain rfl : d = d' := by simpa [hd] using hd'
    exact hg
  info := by simp [errInfoFits, he, hi]

/-- The group's part of the invariant in a phase that `Advance()` from PRG has left. -/
theorem groupInv_of_advance_prg (hf : t.hdrCnt = 16) (hm : magicOK t.hdrBuf = true)
    (hl : d.headerPart = (latchedGroup (headerFields t.hdrBuf)).headerPart) (hc : d.CountsInv)
    (hp : t.phase = advance .prg d) (he : t.eosSeen = false) : GroupInv t d :=
  ⟨hf, hm, hl, hc, phaseFits_advance_prg hp he hc⟩

/-- The 16th byte of a header with the right magic. -/
theorem blockInv_latch (he : s.err = none) (hi : s.errInfo = 0) (heos : s.eosSeen = false)
    (hc : s.hdrCnt = 16) (hm : magicOK s.hdrBuf = true) : BlockInv (latch (headerFields s.hdrBuf) s) := by
  have hg : GroupInv (latch (headerFields s.hdrBuf) s) (latchedGroup (headerFields s.hdrBuf)) :=
    groupInv_of_advance_prg (by rwa [latch_hdrCnt]) (by rwa [latch_hdrBuf]) (by rw [latch_hdrBuf])
      (latchedGroup_countsInv _) (latch_phase _ s) (by rwa [latch_eosSeen])
  have hne : (latch (headerFields s.hdrBuf) s).phase ≠ .error := by
    rw [latch_phase]; exact advance_prg_ne_error _
  exact blockInv_of_group (latch_hdrValid _ s) (latch_decoded _ s) hne (by rwa [latch_err]) (by rwa [latch_errInfo]) hg

/-- A region byte: the new group keeps the header's part, its counts are in order, and the phase fits them. -/
theorem BlockInv.after_withRegion {p : Phase} {d' : DecodedGroup} (h : BlockInv s) (hd : s.decoded = some d)
    (hp : s.phase ≠ .error) (hhead : d'.headerPart = d.headerPart) (hc : d'.CountsInv) (ha : advance p d' ≠ .error)
    (hf : phaseFits (withRegion p d' s) d') : BlockInv (withRegion p d' s) := by
  have hg := h.group d hd
  refine blockInv_of_group ?_ rfl ha (h.err_eq_none hp) (h.errInfo_eq_zero hp) ?_
  · simpa [hd] using h.valid
  · exact ⟨hg.full, hg.magic, hhead.trans hg.latched, hc, hf⟩

theorem BlockInv.after_takePrg (h : BlockInv s) (hp : s.phase = .prg) (hd : s.decoded = some d) (b : Byte) :
    BlockInv (withRegion .prg (d.takePrg b) s) := by
  have hg := h.group d hd
  obtain ⟨hlt, heos⟩ := hg.prg_short hp
  have hc := hg.counts.after_takePrg hlt b
  exact h.after_withRegion hd (by simp [hp]) (takePrg_headerPart d b) hc (advance_prg_ne_error _)
    (phaseFits_advance_prg rfl heos hc)

theorem BlockInv.after_takeChr (h : BlockInv s) (hp : s.phase = .chr) (hd : s.decoded = some d) (b : Byte) :
    BlockInv (withRegion .chr (d.takeChr b) s) := by
  have hg := h.group d hd
  obtain ⟨hprg, hlt, heos⟩ := hg.chr_short hp
  have hc := hg.counts.after_takeChr hprg hlt b
  exact h.after_withRegion hd (by simp [hp]) (takeChr_headerPart d b) hc (advance_chr_ne_error _)
    (phaseFits_advance_chr rfl heos hc hprg)

/-- EOS after the header: the stream has ended, so DONE fits any counts. -/
theorem BlockInv.after_endStream (h : BlockInv s) (hh : s.phase ≠ .hdr) (he : s.phase ≠ .error) :
    BlockInv { s with eosSeen := true, phase := .done } := by
  obtain ⟨d, hd, hg⟩ := h.exists_group hh he
  refine blockInv_of_group ?_ hd (by simp) (h.err_eq_none he) (h.errInfo_eq_zero he) ?_
  · simpa [hd] using h.valid
  · exact ⟨hg.full, hg.magic, hg.latched, hg.counts, .inl rfl⟩

/-! ### The header bytes -/

theorem storeHeaderByte_hdrCnt_toNat (h : s.hdrCnt.toNat < 16) (b : Byte) :
    (storeHeaderByte b s).hdrCnt.toNat = s.hdrCnt.toNat + 1 := by
  rw [storeHeaderByte_hdrCnt, BitVec.toNat_add]
  simp
  omega

/-- One of the first 15 header bytes. -/
theorem BlockInv.after_storeHeaderByte (h : BlockInv s) (hp : s.phase = .hdr) (hc : s.hdrCnt.toNat < 15) (b : Byte) :
    BlockInv (storeHeaderByte b s) := by
  obtain ⟨-, heos, hd⟩ := h.hdr hp
  have hne : s.phase ≠ .error := by simp [hp]
  have hcnt := storeHeaderByte_hdrCnt_toNat (s := s) (by omega) b
  exact {
    valid := h.valid
    cnt_le := by omega
    error_iff := h.error_iff
    hdr := fun _ => ⟨by omega, heos, hd⟩
    undecoded := h.undecoded
    group := fun d hd' => by simp [hd] at hd'
    info := by simp [errInfoFits, h.err_eq_none hne, h.errInfo_eq_zero hne] }

/-- EOS before the header is complete. -/
theorem BlockInv.after_truncatedInput (h : BlockInv s) (hp : s.phase = .hdr) :
    BlockInv (raise .truncatedInput (s.hdrCnt.setWidth 32) { s with eosSeen := true }) := by
  obtain ⟨hc, -, hd⟩ := h.hdr hp
  have he : ({ s with eosSeen := true } : State).err = none := h.err_eq_none (by simp [hp])
  refine blockInv_raise h.valid h.cnt_le (fun d hd' => by simp [hd] at hd') ?_
  rw [errInfoFits_raise he]
  exact ⟨rfl, hc, rfl, hd⟩

/-- The 16th byte of a header with a wrong magic. -/
theorem BlockInv.after_invalidMagic (h : BlockInv s) (hp : s.phase = .hdr) (hc : s.hdrCnt = 15)
    (hm : magicOK (storeHeaderByte b s).hdrBuf = false) :
    BlockInv (raise .invalidMagic (magicInfo (storeHeaderByte b s).hdrBuf)
      (storeHeaderByte b s)) := by
  obtain ⟨-, -, hd⟩ := h.hdr hp
  have he : (storeHeaderByte b s).err = none := h.err_eq_none (by simp [hp])
  refine blockInv_raise h.valid (by simp [hc]) (fun d hd' => by simp [hd] at hd') ?_
  rw [errInfoFits_raise he]
  exact ⟨rfl, by simp [hc], hm, hd⟩

/-! ### The commands -/

theorem BlockInv.after_execPush (h : BlockInv s) (ht : execPush b s = .next t) : BlockInv t := by
  rcases execPush_cases ht with ⟨-, rfl⟩ | ⟨-, -, rfl⟩ | ⟨hp, -, hc, rfl⟩ | ⟨hp, -, hc, hm, rfl⟩ |
    ⟨hp, heos, hc, hm, rfl⟩ | ⟨d, hp, -, hd, rfl⟩ | ⟨d, hp, -, hd, rfl⟩ | ⟨-, -, rfl⟩
  · exact h.after_respond _ _
  · exact h.after_illegalCommand _
  · exact (h.after_storeHeaderByte hp hc b).after_respond _ _
  · exact h.after_invalidMagic hp hc hm
  · have hne : s.phase ≠ .error := by simp [hp]
    have hl : BlockInv (latch (headerFields (storeHeaderByte b s).hdrBuf) (storeHeaderByte b s)) :=
      blockInv_latch (h.err_eq_none hne) (h.errInfo_eq_zero hne) heos (by simp [hc]) hm
    exact hl.after_respond _ _
  · exact (h.after_takePrg hp hd b).after_respond _ _
  · exact (h.after_takeChr hp hd b).after_respond _ _
  · exact h.after_respond _ _

theorem BlockInv.after_execEos (h : BlockInv s) (ht : execEos s = .next t) : BlockInv t := by
  rcases execEos_cases ht with ⟨-, rfl⟩ | ⟨hp, rfl⟩ | ⟨hp, rfl⟩
  · exact h.after_respond _ _
  · exact h.after_truncatedInput hp
  · have hne : s.phase ≠ .hdr ∧ s.phase ≠ .error := by rcases hp with hp | hp | hp <;> simp [hp]
    exact (h.after_endStream hne.1 hne.2).after_respond _ _

theorem BlockInv.after_execRdreg {idx : Byte} (h : BlockInv s) (ht : execRdreg idx s = .next t) : BlockInv t := by
  rcases execRdreg_cases ht with ⟨-, rfl⟩ | ⟨r, v, -, -, -, rfl⟩ | ⟨r, -, hr, rfl⟩
  · exact h.after_illegalCommand _
  · exact h.after_respond _ _
  · refine h.after_raise fun he => ?_
    exact (errInfoFits_raise he).mpr ⟨r, hr, rfl⟩

/-- A position that a word encodes is the signed value of 8 bits, and `ERRINFO` is their sign extension. -/
theorem BlockInv.after_execGetbit {pos : Int} (h : BlockInv s) (hw : posInRange pos) (ht : execGetbit pos b s = .next t) :
    BlockInv t := by
  rcases execGetbit_cases ht with ⟨-, rfl⟩ | ⟨-, -, -, rfl⟩ | ⟨-, hpos, rfl⟩
  · exact h.after_respond _ _
  · exact h.after_respond _ _
  · refine h.after_raise fun he => ?_
    refine (errInfoFits_raise he).mpr ⟨BitVec.ofInt 8 pos, ?_, ?_⟩
    · rwa [toInt_ofInt_of_inRange hw]
    · rw [BitVec.signExtend, toInt_ofInt_of_inRange hw]

theorem BlockInv.after_exec {i : Instr} (h : BlockInv s) (hw : i.wf = true) (ht : exec i s = .next t) : BlockInv t := by
  cases i with
  | push b => exact h.after_execPush ht
  | eos => exact h.after_execEos ht
  | rdreg idx => exact h.after_execRdreg ht
  | getbit pos b => exact h.after_execGetbit (by simpa [Instr.wf] using hw) ht
  | mapc f6 f7 => rcases execMapc_cases ht with ⟨-, rfl⟩ | ⟨-, rfl⟩ <;> exact h.after_respond _ _
  | sizc sel n => rcases execSizc_cases ht with ⟨-, rfl⟩ | ⟨-, rfl⟩ <;> exact h.after_respond _ _
  | clear => cases ht; exact (clearBlock_atReset s).blockInv.after_respond _ _

/-- A decoded instruction is well formed: its one signed operand comes from 8 bits. -/
theorem wf_of_decode_ok {w : Word} {i : Instr} (h : decode w = .ok i) : i.wf = true := by
  rcases decode_ok_cases h with ⟨-, -, rfl⟩ | ⟨-, -, rfl⟩ | ⟨-, -, rfl⟩ | ⟨-, -, rfl⟩ | ⟨-, -, rfl⟩ | ⟨-, -, rfl⟩ |
    ⟨-, -, rfl⟩
  · rfl
  · rfl
  · rfl
  · exact decide_eq_true (posInRange_toInt (hiByte w))
  · rfl
  · rfl
  · rfl

/-- Settles O36: a step idles, resets, raises IllegalCommand or executes a well-formed command, and each keeps the
invariant. -/
theorem stepKeepsTheInvariant : Obligations.StepKeepsTheInvariant := by
  intro s t h ht
  have hrest (rest : List HostAct) : BlockInv { s with issue := rest } := h.of_regs (withIssue_regs s rest)
  rcases step_cases ht with ⟨-, rfl⟩ | ⟨rest, -, rfl⟩ | ⟨w, rest, e, -, -, rfl⟩ | ⟨w, rest, i, -, hd, hx⟩
  · exact h.of_regs (idle_regs s)
  · exact (clearBlock_atReset _).blockInv
  · exact (hrest rest).after_illegalCommand w
  · exact (hrest rest).after_exec (wf_of_decode_ok hd) hx

/-- Settles O35: the reset values satisfy the invariant. -/
theorem resetStateSatisfiesTheInvariant : Obligations.ResetStateSatisfiesTheInvariant := reset_atReset.blockInv

end Sys2Proof.Machine

/-!
SUPPORT. What no step can observe: the header-buffer bytes not yet received (10_state.md R26), and the response port
(R48). Each is a congruence: every operation of the step is carried from one state to the other.
-/

namespace Sys2Proof.Machine

open Sys2Proof

variable {s t : State}

/-! ### Header-buffer bytes not yet received -/

/-- Another buffer in its place. -/
def State.withBuf (s : State) (buf : Header) : State := { s with hdrBuf := buf }

@[simp] theorem withBuf_phase (s : State) (buf : Header) : (s.withBuf buf).phase = s.phase := rfl

/-- No register reads the buffer. -/
@[simp] theorem withBuf_regValue (s : State) (buf : Header) (r : Reg) : (s.withBuf buf).regValue r = s.regValue r := by
  cases r <;> rfl

/-- The relation, with the other state written as a replacement of the buffer. -/
theorem sameButUnreceived_iff :
    SameButUnreceived s t ↔ ∃ buf, t = s.withBuf buf
      ∧ ∀ (i : Nat) (h : i < 16), i < s.hdrCnt.toNat → s.hdrBuf[i] = buf[i] := by
  constructor
  · rintro ⟨ht, hb⟩; exact ⟨t.hdrBuf, ht, hb⟩
  · rintro ⟨buf, rfl, hb⟩; exact ⟨rfl, hb⟩

/-- What does not look at the buffer has one value in both. -/
theorem SameButUnreceived.value_eq {α : Type} (h : SameButUnreceived s t) (f : State → α)
    (hf : ∀ s buf, f (State.withBuf s buf) = f s) : f t = f s := by
  obtain ⟨buf, rfl, -⟩ := sameButUnreceived_iff.mp h
  exact hf s buf

theorem SameButUnreceived.refl (s : State) : SameButUnreceived s s := ⟨rfl, fun _ _ _ => rfl⟩

/-- With all 16 bytes received nothing is left to differ. -/
theorem SameButUnreceived.eq_of_full (h : SameButUnreceived s t) (hc : 16 ≤ s.hdrCnt.toNat) : t = s := by
  obtain ⟨buf, rfl, hb⟩ := sameButUnreceived_iff.mp h
  obtain rfl : s.hdrBuf = buf := Vector.ext fun i hi => hb i hi (Nat.lt_of_lt_of_le hi hc)
  rfl

/-- The operation treats the buffer as a sealed box: it carries any contents through. -/
structure SealsBuffer (f : State → State) : Prop where
  comm : ∀ s buf, f (s.withBuf buf) = (f s).withBuf buf
  cnt : ∀ s, (f s).hdrCnt = s.hdrCnt
  buf : ∀ s, (f s).hdrBuf = s.hdrBuf

theorem SealsBuffer.same {f : State → State} (hf : SealsBuffer f) (h : SameButUnreceived s t) :
    SameButUnreceived (f s) (f t) := by
  obtain ⟨buf, rfl, hb⟩ := sameButUnreceived_iff.mp h
  refine sameButUnreceived_iff.mpr ⟨buf, hf.comm s buf, ?_⟩
  rwa [hf.cnt, hf.buf]

theorem SealsBuffer.comp {f g : State → State} (hf : SealsBuffer f) (hg : SealsBuffer g) :
    SealsBuffer fun s => f (g s) where
  comm s buf := by rw [hg.comm, hf.comm]
  cnt s := by rw [hf.cnt, hg.cnt]
  buf s := by rw [hf.buf, hg.buf]

theorem sealsBuffer_respond (st : Status) (val : Word) : SealsBuffer (respond st val) :=
  ⟨fun _ _ => rfl, fun _ => rfl, fun _ => rfl⟩

theorem sealsBuffer_idle : SealsBuffer idle := ⟨fun _ _ => rfl, fun _ => rfl, fun _ => rfl⟩

theorem sealsBuffer_issue (rest : List HostAct) : SealsBuffer fun s => { s with issue := rest } :=
  ⟨fun _ _ => rfl, fun _ => rfl, fun _ => rfl⟩

theorem sealsBuffer_withRegion (p : Phase) (d : DecodedGroup) : SealsBuffer (withRegion p d) :=
  ⟨fun _ _ => rfl, fun _ => rfl, fun _ => rfl⟩

theorem sealsBuffer_raise (e : ErrorCode) (info : Word) : SealsBuffer (raise e info) where
  comm s buf := by
    rcases s with ⟨_, _, _, _ | _, _, _, _, _, _, _⟩ <;> rfl
  cnt := raise_hdrCnt e info
  buf := raise_hdrBuf e info

theorem sealsBuffer_readReg (r : Reg) : SealsBuffer (readReg r) where
  comm s buf := by
    have hr : (s.withBuf buf).mayRead r = s.mayRead r := rfl
    unfold readReg
    rw [hr, withBuf_regValue]
    split
    · rfl
    · exact (sealsBuffer_raise _ _).comm s buf
  cnt s := by rcases readReg_cases r s with ⟨v, -, -, h⟩ | ⟨-, h⟩ <;> simp [h]
  buf s := by rcases readReg_cases r s with ⟨v, -, -, h⟩ | ⟨-, h⟩ <;> simp [h]

/-- Whatever next state the first outcome has, the second has one that differs only in bytes not yet received. -/
def SameOutcome (p q : Result) : Prop := ∀ s', p = .next s' → ∃ t', q = .next t' ∧ SameButUnreceived s' t'

theorem SameButUnreceived.next (h : SameButUnreceived s t) : SameOutcome (.next s) (.next t) := by
  intro s' hs; cases hs; exact ⟨t, rfl, h⟩

theorem SealsBuffer.next {f : State → State} (hf : SealsBuffer f) (h : SameButUnreceived s t) :
    SameOutcome (.next (f s)) (.next (f t)) := (hf.same h).next

theorem sameOutcome_fault (r : Fault) (q : Result) : SameOutcome (.fault r) q := fun _ hs => nomatch hs

theorem sameOutcome_unlessError {act : State → Result} (h : SameButUnreceived s t) (ha : SameOutcome (act s) (act t)) :
    SameOutcome (unlessError s act) (unlessError t act) := by
  have hp : t.phase = s.phase := h.value_eq State.phase fun _ _ => rfl
  by_cases he : s.phase = .error
  · rw [unlessError_of_eq he, unlessError_of_eq (hp.trans he)]
    exact (sealsBuffer_respond _ _).next h
  · rwa [unlessError_of_ne he, unlessError_of_ne (hp ▸ he)]

/-- The one operation that opens the box writes the same byte at the same place of both, and counts it. -/
theorem sameButUnreceived_storeHeaderByte (h : SameButUnreceived s t) (hc : s.hdrCnt.toNat < 16) (b : Byte) :
    SameButUnreceived (storeHeaderByte b s) (storeHeaderByte b t) := by
  obtain ⟨buf, rfl, hb⟩ := sameButUnreceived_iff.mp h
  refine sameButUnreceived_iff.mpr ⟨buf.setIfInBounds s.hdrCnt.toNat b, rfl, fun i hi hlt => ?_⟩
  rw [storeHeaderByte_hdrCnt_toNat hc] at hlt
  rw [storeHeaderByte_hdrBuf, Vector.getElem_setIfInBounds, Vector.getElem_setIfInBounds]
  split
  · rfl
  · exact hb i hi (by omega)

theorem sameOutcome_pushHeader (h : SameButUnreceived s t) (b : Byte) : SameOutcome (pushHeader b s) (pushHeader b t) := by
  have hcnt : t.hdrCnt = s.hdrCnt := h.value_eq State.hdrCnt fun _ _ => rfl
  rcases Nat.lt_or_ge s.hdrCnt.toNat 15 with hc | hc
  · rw [pushHeader_early hc, pushHeader_early (hcnt ▸ hc)]
    exact (sealsBuffer_respond _ _).next (sameButUnreceived_storeHeaderByte h (by omega) b)
  rcases Nat.lt_or_ge s.hdrCnt.toNat 16 with hc' | hc'
  · have hstore := sameButUnreceived_storeHeaderByte h hc' b
    have h15 : s.hdrCnt = 15 := BitVec.eq_of_toNat_eq (by simp; omega)
    have heq := hstore.eq_of_full (by rw [storeHeaderByte_hdrCnt_toNat hc']; omega)
    rw [pushHeader_last h15, pushHeader_last (hcnt.trans h15), heq]
    exact (SameButUnreceived.refl _).next
  · rw [pushHeader_full hc']
    exact sameOutcome_fault _ _

theorem sameOutcome_pushByPhase (h : SameButUnreceived s t) (b : Byte) :
    SameOutcome (pushByPhase b s) (pushByPhase b t) := by
  have hp : t.phase = s.phase := h.value_eq State.phase fun _ _ => rfl
  have hd : t.decoded = s.decoded := h.value_eq State.decoded fun _ _ => rfl
  unfold pushByPhase
  rw [hp]
  split
  · exact sameOutcome_pushHeader h b
  · unfold pushPrg
    rw [hd]
    split
    · exact ((sealsBuffer_respond _ _).comp (sealsBuffer_withRegion _ _)).next h
    · exact sameOutcome_fault _ _
  · unfold pushChr
    rw [hd]
    split
    · exact ((sealsBuffer_respond _ _).comp (sealsBuffer_withRegion _ _)).next h
    · exact sameOutcome_fault _ _
  · exact (sealsBuffer_respond _ _).next h
  · exact (sealsBuffer_respond _ _).next h

theorem sealsBuffer_eosSeen : SealsBuffer fun s => { s with eosSeen := true } :=
  ⟨fun _ _ => rfl, fun _ => rfl, fun _ => rfl⟩

theorem sealsBuffer_eosByPhase : SealsBuffer eosByPhase where
  comm s buf := by
    unfold eosByPhase
    rw [withBuf_phase]
    cases s.phase with
    | hdr => exact (sealsBuffer_raise _ _).comm s buf
    | _ => rfl
  cnt s := by unfold eosByPhase; split <;> simp
  buf s := by unfold eosByPhase; split <;> simp

theorem sameOutcome_execPush (h : SameButUnreceived s t) (b : Byte) : SameOutcome (execPush b s) (execPush b t) := by
  have he : t.eosSeen = s.eosSeen := h.value_eq State.eosSeen fun _ _ => rfl
  unfold execPush
  refine sameOutcome_unlessError h ?_
  rw [he]
  split
  · exact (sealsBuffer_raise _ _).next h
  · exact sameOutcome_pushByPhase h b

theorem sameOutcome_execEos (h : SameButUnreceived s t) : SameOutcome (execEos s) (execEos t) := by
  unfold execEos
  refine sameOutcome_unlessError h ?_
  exact (sealsBuffer_eosByPhase.comp sealsBuffer_eosSeen).next h

theorem sameOutcome_execRdreg (h : SameButUnreceived s t) (idx : Byte) :
    SameOutcome (execRdreg idx s) (execRdreg idx t) := by
  unfold execRdreg
  cases Reg.ofIndex idx with
  | none => exact (sealsBuffer_raise _ _).next h
  | some r => exact (sealsBuffer_readReg r).next h

theorem sameOutcome_execGetbit (h : SameButUnreceived s t) (pos : Int) (b : Byte) :
    SameOutcome (execGetbit pos b s) (execGetbit pos b t) := by
  unfold execGetbit
  refine sameOutcome_unlessError h ?_
  cases getBit b pos with
  | error info => exact (sealsBuffer_raise _ _).next h
  | ok v => exact (sealsBuffer_respond _ _).next h

/-- MAPC and SIZC: a gated answer that looks at no state. -/
theorem sameOutcome_gated_respond (h : SameButUnreceived s t) (v : Word) :
    SameOutcome (unlessError s fun s => .next (respond .ok v s)) (unlessError t fun s => .next (respond .ok v s)) :=
  sameOutcome_unlessError (act := fun s => .next (respond .ok v s)) h ((sealsBuffer_respond _ _).next h)

theorem sameOutcome_execClear (h : SameButUnreceived s t) : SameOutcome (execClear s) (execClear t) := by
  have hc : clearBlock t = clearBlock s := h.value_eq clearBlock fun _ _ => rfl
  rw [execClear_eq, execClear_eq, hc]
  exact (SameButUnreceived.refl _).next

theorem sameOutcome_exec (h : SameButUnreceived s t) (i : Instr) : SameOutcome (exec i s) (exec i t) := by
  cases i with
  | push b => exact sameOutcome_execPush h b
  | eos => exact sameOutcome_execEos h
  | rdreg idx => exact sameOutcome_execRdreg h idx
  | getbit pos b => exact sameOutcome_execGetbit h pos b
  | mapc f6 f7 => exact sameOutcome_gated_respond h (mapperWord f6 f7)
  | sizc sel n => exact sameOutcome_gated_respond h (sizeCalc sel n)
  | clear => exact sameOutcome_execClear h

theorem sameOutcome_step (h : SameButUnreceived s t) : SameOutcome (step s) (step t) := by
  have hi : t.issue = s.issue := h.value_eq State.issue fun _ _ => rfl
  have hrest (rest : List HostAct) := (sealsBuffer_issue rest).same h
  unfold step
  rw [hi]
  split
  · exact sealsBuffer_idle.next h
  · next rest _ =>
    have hc : hardwareReset { t with issue := rest } = hardwareReset { s with issue := rest } :=
      (hrest rest).value_eq hardwareReset fun _ _ => rfl
    rw [hc]
    exact (SameButUnreceived.refl _).next
  · next w rest _ =>
    unfold execute
    split
    · exact (sealsBuffer_raise _ _).next (hrest rest)
    · exact sameOutcome_exec (hrest rest) _

/-- Settles O43: the operations of a step seal the buffer, but for the header PUSH, which opens it only at the byte it
receives. -/
theorem unreceivedHeaderBytesAreUnobservable : Obligations.UnreceivedHeaderBytesAreUnobservable := by
  intro s t h
  refine ⟨sameOutcome_step h, fun r => ?_⟩
  obtain ⟨buf, rfl, -⟩ := sameButUnreceived_iff.mp h
  exact (withBuf_regValue s buf r).symm

/-! ### The response port -/

/-- Another response in its place. -/
def State.withResp (s : State) (r : Option Response) : State := { s with resp := r }

@[simp] theorem withResp_phase (s : State) (r : Option Response) : (s.withResp r).phase = s.phase := rfl
@[simp] theorem withResp_eosSeen (s : State) (r : Option Response) : (s.withResp r).eosSeen = s.eosSeen := rfl
@[simp] theorem withResp_decoded (s : State) (r : Option Response) : (s.withResp r).decoded = s.decoded := rfl
@[simp] theorem withResp_issue (s : State) (r : Option Response) : (s.withResp r).issue = s.issue := rfl

@[simp] theorem withResp_regValue (s : State) (q : Option Response) (r : Reg) :
    (s.withResp q).regValue r = s.regValue r := by
  cases r <;> rfl

/-- The result does not depend on the response that stands on the port. -/
def PortBlind {α : Type} (f : State → α) : Prop := ∀ s r, f (State.withResp s r) = f s

theorem PortBlind.next {f : State → State} (hf : PortBlind f) : PortBlind fun s => (.next (f s) : Result) :=
  fun s r => congrArg Host.Outcome.next (hf s r)

theorem portBlind_respond (st : Status) (val : Word) : PortBlind (respond st val) := fun _ _ => rfl

theorem portBlind_raise (e : ErrorCode) (info : Word) : PortBlind (raise e info) := by
  intro s r
  rcases s with ⟨_, _, _, _ | _, _, _, _, _, _, _⟩ <;> rfl

theorem portBlind_unlessError {act : State → Result} (ha : PortBlind act) : PortBlind fun s => unlessError s act := by
  intro s r
  simp only [unlessError, withResp_phase, ha s r, portBlind_respond .aborted 0 s r]

theorem portBlind_readReg (r : Reg) : PortBlind (readReg r) := by
  intro s q
  have hm : (s.withResp q).mayRead r = s.mayRead r := rfl
  unfold readReg
  rw [hm, withResp_regValue, portBlind_raise]
  rfl

theorem portBlind_finishHeader : PortBlind finishHeader := by
  intro s r
  have hb : (s.withResp r).hdrBuf = s.hdrBuf := rfl
  unfold finishHeader
  rw [hb]
  cases decodeHeader s.hdrBuf with
  | error info => exact portBlind_raise _ _ s r
  | ok d => rfl

theorem portBlind_pushHeader (b : Byte) : PortBlind (pushHeader b) := by
  intro s r
  have hf : finishHeader (storeHeaderByte b (s.withResp r)) = finishHeader (storeHeaderByte b s) :=
    portBlind_finishHeader (storeHeaderByte b s) r
  unfold pushHeader
  rw [hf]
  rfl

theorem portBlind_pushByPhase (b : Byte) : PortBlind (pushByPhase b) := by
  intro s r
  unfold pushByPhase
  rw [withResp_phase]
  cases s.phase with
  | hdr => exact portBlind_pushHeader b s r
  | prg => unfold pushPrg; rw [withResp_decoded]; rfl
  | chr => unfold pushChr; rw [withResp_decoded]; rfl
  | done => rfl
  | error => rfl

theorem portBlind_eosByPhase : PortBlind eosByPhase := by
  intro s r
  unfold eosByPhase
  rw [withResp_phase]
  cases s.phase with
  | hdr => exact portBlind_raise _ _ s r
  | _ => rfl

theorem portBlind_execPush (b : Byte) : PortBlind (execPush b) := by
  refine portBlind_unlessError fun s r => ?_
  rw [portBlind_raise, portBlind_pushByPhase, withResp_eosSeen]

theorem portBlind_execEos : PortBlind execEos :=
  portBlind_unlessError fun s r => portBlind_eosByPhase.next { s with eosSeen := true } r

theorem portBlind_execRdreg (idx : Byte) : PortBlind (execRdreg idx) := by
  unfold execRdreg
  cases Reg.ofIndex idx with
  | none => exact (portBlind_raise _ _).next
  | some r => exact (portBlind_readReg r).next

theorem portBlind_execGetbit (pos : Int) (b : Byte) : PortBlind (execGetbit pos b) := by
  refine portBlind_unlessError ?_
  cases getBit b pos with
  | error info => exact (portBlind_raise _ _).next
  | ok v => exact (portBlind_respond _ _).next

theorem portBlind_exec (i : Instr) : PortBlind (exec i) := by
  cases i with
  | push b => exact portBlind_execPush b
  | eos => exact portBlind_execEos
  | rdreg idx => exact portBlind_execRdreg idx
  | getbit pos b => exact portBlind_execGetbit pos b
  | mapc f6 f7 => exact portBlind_unlessError (portBlind_respond _ _).next
  | sizc sel n => exact portBlind_unlessError (portBlind_respond _ _).next
  | clear => exact fun s r => rfl

theorem portBlind_execute (w : Word) : PortBlind (execute w) := by
  unfold execute
  cases decode w with
  | error e => exact (portBlind_raise _ _).next
  | ok i => exact portBlind_exec i

/-- Settles O44: every operation of a step is blind to the port. -/
theorem responsePortIsNeverRead : Obligations.ResponsePortIsNeverRead := by
  intro s r
  change step (s.withResp r) = step s
  unfold step
  rw [withResp_issue]
  rcases s.issue with _ | ⟨w | _, rest⟩
  · rfl
  · exact portBlind_execute w { s with issue := rest } r
  · rfl

end Sys2Proof.Machine

/-!
SUPPORT. What the registers read as (10_state.md R22, R23, R44, R47) and how a step moves the decoded group and the stream
offset (R21, R30).
-/

namespace Sys2Proof.Machine

open Sys2Proof

variable {s t : State} {d : DecodedGroup} {b : Byte}

/-! ### Widths of words -/

theorem toNat_or_lt {x y : Word} {k : Nat} (hx : x.toNat < 2 ^ k) (hy : y.toNat < 2 ^ k) : (x ||| y).toNat < 2 ^ k := by
  rw [BitVec.toNat_or]
  exact Nat.or_lt_two_pow hx hy

theorem toNat_shiftLeft_lt {x : Word} {k n : Nat} (hx : x.toNat < 2 ^ k) : (x <<< n).toNat < 2 ^ (k + n) := by
  rw [BitVec.toNat_shiftLeft, Nat.shiftLeft_eq, Nat.pow_add]
  exact Nat.lt_of_le_of_lt (Nat.mod_le _ _) (Nat.mul_lt_mul_of_pos_right hx (Nat.two_pow_pos n))

theorem toNat_setWidth_lt {n : Nat} (x : BitVec n) : (x.setWidth 32).toNat < 2 ^ n := by
  rw [BitVec.toNat_setWidth]
  exact Nat.lt_of_le_of_lt (Nat.mod_le _ _) x.isLt

theorem toNat_bitWord_lt (c : Bool) : (bitWord c).toNat < 2 ^ 1 := by cases c <;> decide

theorem toNat_lt_two_pow_of_le {x : Word} {k l : Nat} (hx : x.toNat < 2 ^ k) (h : k ≤ l) : x.toNat < 2 ^ l :=
  Nat.lt_of_lt_of_le hx (Nat.pow_le_pow_right (by decide) h)

/-- A field of `n` bits that starts at bit `k` stays below bit `l`. -/
theorem toNat_field_lt {x : Word} {n k l : Nat} (hx : x.toNat < 2 ^ n) (h : n + k ≤ l) : (x <<< k).toNat < 2 ^ l :=
  toNat_lt_two_pow_of_le (toNat_shiftLeft_lt hx) h

/-! ### The used width of each register -/

theorem statusWord_lt (s : State) : s.statusWord.toNat < 2 ^ 12 := by
  unfold State.statusWord
  refine toNat_or_lt (toNat_or_lt (toNat_or_lt ?_ ?_) ?_) ?_
  · exact toNat_lt_two_pow_of_le (toNat_setWidth_lt _) (by decide)
  · exact toNat_field_lt (toNat_bitWord_lt _) (by decide)
  · exact toNat_field_lt (toNat_bitWord_lt _) (by decide)
  · exact toNat_field_lt (toNat_setWidth_lt _) (by decide)

theorem unpackFields_lt (f6 f7 f9 : Byte) : (unpackFields f6 f7 f9).toNat < 2 ^ 23 := by
  unfold unpackFields
  simp only [setWidth_bitAt]
  refine toNat_or_lt (toNat_or_lt (toNat_or_lt (toNat_or_lt (toNat_or_lt (toNat_or_lt (toNat_or_lt ?_ ?_) ?_) ?_) ?_) ?_)
    ?_) ?_
  · exact toNat_lt_two_pow_of_le (toNat_bitWord_lt _) (by decide)
  iterate 5 exact toNat_field_lt (toNat_bitWord_lt _) (by decide)
  · exact toNat_field_lt (toNat_setWidth_lt _) (by decide)
  · exact toNat_field_lt (toNat_setWidth_lt _) (by decide)

theorem packLe_lt (bs : List Byte) : (packLe bs).toNat < 2 ^ (8 * bs.length) := by
  induction bs with
  | nil => decide
  | cons b bs ih =>
    rw [packLe, List.length_cons]
    refine toNat_or_lt ?_ ?_
    · exact toNat_lt_two_pow_of_le (toNat_setWidth_lt b) (by omega)
    · exact toNat_field_lt ih (by omega)

theorem sizeCalc_prg_le (n : Byte) : (sizeCalc .prg n).toNat ≤ 4177920 := by
  have := n.isLt
  rw [sizeCalc_prg_toNat]; omega

theorem sizeCalc_chr_le (n : Byte) : (sizeCalc .chr n).toNat ≤ 2088960 := by
  have := n.isLt
  rw [sizeCalc_chr_toNat]; omega

theorem latchedGroup_prgSize (h : Header) :
    (latchedGroup (headerFields h)).headerPart.prgSize = sizeCalc .prg h[4] := by
  simp only [DecodedGroup.headerPart, latchedGroup, headerFields]

theorem latchedGroup_chrSize (h : Header) :
    (latchedGroup (headerFields h)).headerPart.chrSize = sizeCalc .chr h[5] := by
  simp only [DecodedGroup.headerPart, latchedGroup, headerFields]

/-- What the latch writes fits: the counters are still 0, and every other field comes from its header bytes. -/
theorem latchedGroup_value_lt (h : Header) {r : Reg} {v : Word}
    (hv : (latchedGroup (headerFields h)).headerPart.value r = some v) : v.toNat < 2 ^ r.widthUsed := by
  cases r with
  | status | errInfo | hdrCnt => cases hv
  | magic | tailLo | prgCrc | chrCrc => exact v.isLt
  | prgBanks | chrBanks | flags6 | flags7 | ramBanks | flags9 => cases hv; exact toNat_setWidth_lt _
  | tailHi => cases hv; exact packLe_lt [h[14], h[15]]
  | mapper =>
    cases hv
    exact toNat_or_lt (toNat_lt_two_pow_of_le (toNat_setWidth_lt _) (by decide))
      (toNat_field_lt (toNat_bitWord_lt _) (by decide))
  | fields => cases hv; exact unpackFields_lt _ _ _
  | prgSize =>
    rw [← Option.some.inj hv, latchedGroup_prgSize]
    exact Nat.lt_of_le_of_lt (sizeCalc_prg_le h[4]) (by decide)
  | chrSize =>
    rw [← Option.some.inj hv, latchedGroup_chrSize]
    exact Nat.lt_of_le_of_lt (sizeCalc_chr_le h[5]) (by decide)
  | prgCnt | chrCnt => cases hv; exact Nat.two_pow_pos _

theorem GroupInv.prgSize_le (h : GroupInv s d) : d.prgSize.toNat ≤ 4177920 := by
  have hs : d.prgSize = sizeCalc .prg s.hdrBuf[4] :=
    (congrArg DecodedGroup.prgSize h.latched).trans (latchedGroup_prgSize s.hdrBuf)
  rw [hs]
  exact sizeCalc_prg_le _

theorem GroupInv.chrSize_le (h : GroupInv s d) : d.chrSize.toNat ≤ 2088960 := by
  have hs : d.chrSize = sizeCalc .chr s.hdrBuf[5] :=
    (congrArg DecodedGroup.chrSize h.latched).trans (latchedGroup_chrSize s.hdrBuf)
  rw [hs]
  exact sizeCalc_chr_le _

/-- A register of the group fits: the counters stay within the sizes, and the rest is what the latch wrote. -/
theorem GroupInv.value_lt (h : GroupInv s d) {r : Reg} {v : Word} (hv : d.value r = some v) :
    v.toNat < 2 ^ r.widthUsed := by
  cases r with
  | prgCnt =>
    cases hv
    exact Nat.lt_of_le_of_lt (h.counts.prg_le.trans h.prgSize_le) (by decide)
  | chrCnt =>
    cases hv
    exact Nat.lt_of_le_of_lt (h.counts.chr_le.trans h.chrSize_le) (by decide)
  | prgCrc | chrCrc => exact v.isLt
  | _ => exact latchedGroup_value_lt s.hdrBuf (by rw [← h.latched]; exact hv)

theorem BlockInv.regValue_lt (h : BlockInv s) {r : Reg} {v : Word} (hv : s.regValue r = some v) :
    v.toNat < 2 ^ r.widthUsed := by
  cases r with
  | status => cases hv; exact statusWord_lt s
  | errInfo => exact v.isLt
  | hdrCnt => cases hv; exact toNat_setWidth_lt _
  | _ =>
    obtain ⟨d, hd, hdv⟩ := Option.bind_eq_some_iff.mp hv
    exact (h.group d hd).value_lt hdv

/-- Settles O26: an OK answer is the register's value, and every value fits. -/
theorem registersFitTheirUsedWidth : Obligations.RegistersFitTheirUsedWidth := by
  intro s t r v h ht hresp
  rcases execRdreg_cases ht with ⟨-, rfl⟩ | ⟨r', v', hr, hv, -, rfl⟩ | ⟨r', -, -, rfl⟩
  · simp at hresp
  · obtain rfl : r = r' := by simpa [ofIndex_index] using hr
    obtain rfl : v' = v := by simpa using hresp
    exact h.regValue_lt hv
  · simp at hresp

/-! ### The stream offset -/

theorem streamOffset_of_none (hd : s.decoded = none) : s.streamOffset = s.hdrCnt.toNat := by
  simp [State.streamOffset, hd]

theorem streamOffset_of_some (hd : s.decoded = some d) :
    s.streamOffset = s.hdrCnt.toNat + d.prgCnt.toNat + d.chrCnt.toNat := by
  simp [State.streamOffset, hd]

/-- The header, and both regions at their longest: 16 + 255 · 16384 + 255 · 8192. -/
theorem BlockInv.streamOffset_le (h : BlockInv s) : s.streamOffset ≤ 6266896 := by
  rcases hd : s.decoded with _ | d
  · rw [streamOffset_of_none hd]
    have := h.cnt_le
    omega
  · have hg := h.group d hd
    have hp := hg.counts.prg_le.trans hg.prgSize_le
    have hc := hg.counts.chr_le.trans hg.chrSize_le
    have := h.cnt_le
    rw [streamOffset_of_some hd]
    omega

/-- A header byte moves the offset by one, whether it is stored, raises InvalidMagic, or latches. -/
theorem BlockInv.pushHeader_offset (h : BlockInv s) (hp : s.phase = .hdr) (b : Byte) :
    ∃ t, pushHeader b s = .next t ∧ t.streamOffset = s.streamOffset + 1 := by
  obtain ⟨hc, -, hd⟩ := h.hdr hp
  have hcnt := storeHeaderByte_hdrCnt_toNat hc b
  have hoff := streamOffset_of_none hd
  rcases Nat.lt_or_ge s.hdrCnt.toNat 15 with hlt | hge
  · refine ⟨_, pushHeader_early hlt, ?_⟩
    rw [streamOffset_of_none (by simpa using hd), respond_hdrCnt, hcnt, hoff]
  have h15 : s.hdrCnt = 15 := BitVec.eq_of_toNat_eq (by simp; omega)
  refine ⟨_, pushHeader_last h15, ?_⟩
  by_cases hm : magicOK (storeHeaderByte b s).hdrBuf = true
  · rw [finishHeader_good hm, streamOffset_of_some (by rw [respond_decoded, latch_decoded]), respond_hdrCnt, latch_hdrCnt,
      hcnt, hoff]
    rfl
  · rw [finishHeader_bad (by simpa using hm), streamOffset_of_none (by simpa using hd), raise_hdrCnt, hcnt, hoff]

theorem BlockInv.execPush_offset (h : BlockInv s) (hp : s.phase = .hdr ∨ s.phase = .prg ∨ s.phase = .chr) (b : Byte) :
    ∃ t, execPush b s = .next t ∧ t.streamOffset = s.streamOffset + 1 := by
  rcases hp with hp | hp | hp
  · obtain ⟨-, heos, -⟩ := h.hdr hp
    rw [execPush_hdr hp heos]
    exact h.pushHeader_offset hp b
  · obtain ⟨d, hd, hg⟩ := h.exists_group (by simp [hp]) (by simp [hp])
    obtain ⟨hlt, heos⟩ := hg.prg_short hp
    refine ⟨_, execPush_prg hp heos hd, ?_⟩
    rw [streamOffset_of_some hd, streamOffset_of_some (d := d.takePrg b) rfl, takePrg_prgCnt, takePrg_chrCnt,
      toNat_add_one_of_lt hlt, respond_hdrCnt, withRegion_hdrCnt]
    omega
  · obtain ⟨d, hd, hg⟩ := h.exists_group (by simp [hp]) (by simp [hp])
    obtain ⟨-, hlt, heos⟩ := hg.chr_short hp
    refine ⟨_, execPush_chr hp heos hd, ?_⟩
    rw [streamOffset_of_some hd, streamOffset_of_some (d := d.takeChr b) rfl, takeChr_prgCnt, takeChr_chrCnt,
      toNat_add_one_of_lt hlt, respond_hdrCnt, withRegion_hdrCnt]
    omega

/-- Settles O34: the push counts one byte, and its next state is of the invariant, whose offsets are bounded. -/
theorem pushMovesTheStreamOffsetByOne : Obligations.PushMovesTheStreamOffsetByOne := by
  intro b s h hp
  obtain ⟨t, ht, hoff⟩ := h.execPush_offset hp b
  exact ⟨t, ht, hoff, (h.after_execPush ht).streamOffset_le⟩

/-! ### The decoded fields -/

/-- A PUSH after the header leaves the group or takes a region byte into it. -/
theorem execPush_keeps_headerPart (hd : s.decoded = some d) (hp : s.phase ≠ .hdr) (ht : execPush b s = .next t) :
    ∃ d', t.decoded = some d' ∧ d'.headerPart = d.headerPart := by
  rcases execPush_cases ht with ⟨-, rfl⟩ | ⟨-, -, rfl⟩ | ⟨hh, -⟩ | ⟨hh, -⟩ | ⟨hh, -⟩ | ⟨d', -, -, hd', rfl⟩ |
    ⟨d', -, -, hd', rfl⟩ | ⟨-, -, rfl⟩
  · exact ⟨d, hd, rfl⟩
  · exact ⟨d, by simpa using hd, rfl⟩
  · exact absurd hh hp
  · exact absurd hh hp
  · exact absurd hh hp
  · obtain rfl : d = d' := Option.some.inj (hd.symm.trans hd')
    exact ⟨d.takePrg b, rfl, takePrg_headerPart d b⟩
  · obtain rfl : d = d' := Option.some.inj (hd.symm.trans hd')
    exact ⟨d.takeChr b, rfl, takeChr_headerPart d b⟩
  · exact ⟨d, hd, rfl⟩

/-- No command but PUSH and CLEAR writes the group. -/
theorem exec_keeps_decoded {i : Instr} (hpush : ∀ b, i ≠ .push b) (hclear : i ≠ .clear) (ht : exec i s = .next t) :
    t.decoded = s.decoded := by
  cases i with
  | push b => exact absurd rfl (hpush b)
  | eos => rcases execEos_cases ht with ⟨-, rfl⟩ | ⟨-, rfl⟩ | ⟨-, rfl⟩ <;> simp
  | rdreg idx => rcases execRdreg_cases ht with ⟨-, rfl⟩ | ⟨r, v, -, -, -, rfl⟩ | ⟨r, -, -, rfl⟩ <;> simp
  | getbit pos b => rcases execGetbit_cases ht with ⟨-, rfl⟩ | ⟨-, -, -, rfl⟩ | ⟨-, -, rfl⟩ <;> simp
  | mapc f6 f7 => rcases execMapc_cases ht with ⟨-, rfl⟩ | ⟨-, rfl⟩ <;> simp
  | sizc sel n => rcases execSizc_cases ht with ⟨-, rfl⟩ | ⟨-, rfl⟩ <;> simp
  | clear => exact absurd rfl hclear

theorem ne_clear_of_not_endsInvocation {w : Word} {i : Instr} (h : (HostAct.command w).endsInvocation = false)
    (hd : decode w = .ok i) : i ≠ .clear := by
  rintro rfl
  simp [HostAct.endsInvocation, hd] at h

/-- Settles O40: after the latch only a region PUSH writes the group, and it writes counters and accumulators. -/
theorem decodedFieldsAreImmutable : Obligations.DecodedFieldsAreImmutable := by
  intro s t d h hd hend ht
  rcases step_cases ht with ⟨-, rfl⟩ | ⟨rest, hi, -⟩ | ⟨w, rest, e, -, -, rfl⟩ | ⟨w, rest, i, hi, hdec, hx⟩
  · exact ⟨d, hd, rfl⟩
  · simpa [HostAct.endsInvocation] using hend .assertReset (by simp [hi])
  · exact ⟨d, by simpa using hd, rfl⟩
  · have hclear : i ≠ .clear := ne_clear_of_not_endsInvocation (hend (.command w) (by simp [hi])) hdec
    by_cases hpush : ∃ b, i = .push b
    · obtain ⟨b, rfl⟩ := hpush
      exact execPush_keeps_headerPart (s := { s with issue := rest }) hd (h.group d hd).phase_ne_hdr hx
    · exact ⟨d, (exec_keeps_decoded (not_exists.mp hpush) hclear hx).trans hd, rfl⟩

/-! ### Codes, reset values, STATUS -/

/-- Settles O6: each code is read off its definition. -/
theorem codesAreAsListed : Obligations.CodesAreAsListed :=
  ⟨⟨rfl, rfl, rfl, rfl, rfl⟩, rfl, rfl, rfl, rfl, rfl, rfl, rfl, rfl, fun _ => rfl⟩

/-- With the reset values no register of the decoded group may be read. -/
theorem AtReset.readReg_eq (h : AtReset t) {r : Reg} (hr : r.group = .decoded) :
    readReg r t = raise .notDecoded (r.index.setWidth 32) t := by
  have hmay : t.mayRead r = false := by simp [State.mayRead, hr, h.valid]
  simp [readReg, hmay]

/-- Settles O12: reset and `clearBlock` have the values of R47, and with these a decoded register is not read. -/
theorem resetAndClearGiveTheResetValues : Obligations.ResetAndClearGiveTheResetValues := by
  refine ⟨reset_atReset, fun s => ⟨_, rfl, (clearBlock_atReset s).after_respond .ok 0⟩, fun s rest hi => ?_,
    fun t r h hr => ?_⟩
  · exact ⟨hardwareReset { s with issue := rest }, by simp [step, hi], clearBlock_atReset _⟩
  · refine ⟨_, ?_, raise_raised .notDecoded (r.index.setWidth 32) t⟩
    rw [← h.readReg_eq hr]
    simp [exec, execRdreg, ofIndex_index]

theorem statusWord_phase (s : State) : s.statusWord.extractLsb' 0 3 = s.phase.code := by
  ext k hk; interval_cases k <;> simp [State.statusWord]

theorem statusWord_err (s : State) : s.statusWord.extractLsb' 8 4 = errCode s.err := by
  ext k hk; interval_cases k <;> simp [State.statusWord]

/-- Settles O23, bit by bit of the `STATUS` word. -/
theorem statusReadsItsFields : Obligations.StatusReadsItsFields := by
  intro s
  refine ⟨s.statusWord, rfl, statusWord_phase s, ?_, ?_, ?_, statusWord_err s, ?_⟩
  · simp [State.statusWord]
  · simp [State.statusWord]
  · ext k hk; interval_cases k <;> simp [State.statusWord]
  · ext k hk; interval_cases k <;> simp [State.statusWord]

end Sys2Proof.Machine

/-!
SUPPORT. The commands that read or compute (20_memory.md R64): RDREG, GETBIT, MAPC and SIZC.
-/

namespace Sys2Proof.Machine

open Sys2Proof

variable {s t : State}

/-- A command other than PUSH, EOS and CLEAR drives the port and nothing else, or raises. -/
theorem exec_responds_or_raises {i : Instr} (hpush : ∀ b, i ≠ .push b) (heos : i ≠ .eos) (hclear : i ≠ .clear)
    (ht : exec i s = .next t) : (∃ st v, t = respond st v s) ∨ (∃ e info, t = raise e info s) := by
  cases i with
  | push b => exact absurd rfl (hpush b)
  | eos => exact absurd rfl heos
  | rdreg idx =>
    rcases execRdreg_cases ht with ⟨-, h⟩ | ⟨r, v, -, -, -, h⟩ | ⟨r, -, -, h⟩
    · exact .inr ⟨_, _, h⟩
    · exact .inl ⟨_, _, h⟩
    · exact .inr ⟨_, _, h⟩
  | getbit pos b =>
    rcases execGetbit_cases ht with ⟨-, h⟩ | ⟨-, -, -, h⟩ | ⟨-, -, h⟩
    · exact .inl ⟨_, _, h⟩
    · exact .inl ⟨_, _, h⟩
    · exact .inr ⟨_, _, h⟩
  | mapc f6 f7 => rcases execMapc_cases ht with ⟨-, h⟩ | ⟨-, h⟩ <;> exact .inl ⟨_, _, h⟩
  | sizc sel n => rcases execSizc_cases ht with ⟨-, h⟩ | ⟨-, h⟩ <;> exact .inl ⟨_, _, h⟩
  | clear => exact absurd rfl hclear

/-- A raise answers an error code, so an OK or Aborted answer was not a raise. -/
theorem ne_raise_of_ok_or_aborted {r : Response} (hr : t.resp = some r) (hst : r.st = .ok ∨ r.st = .aborted)
    (e : ErrorCode) (info : Word) : t ≠ raise e info s := by
  rintro rfl
  obtain rfl : ⟨.error e, 0⟩ = r := Option.some.inj ((raise_resp e info s).symm.trans hr)
  rcases hst with h | h <;> cases h

/-- Settles O41: such a command only drives the port unless it raises, and the answer shows that it did not raise. -/
theorem readsAndUtilitiesChangeNoRegister : Obligations.ReadsAndUtilitiesChangeNoRegister := by
  intro i s t r hpush heos hclear ht hr hst
  rcases exec_responds_or_raises hpush heos hclear ht with ⟨st, v, rfl⟩ | ⟨e, info, hraise⟩
  · exact respond_regs st v s
  · exact absurd hraise (ne_raise_of_ok_or_aborted hr hst e info)

end Sys2Proof.Machine

/-!
SUPPORT. The command word (30_encoding.md R90 to R97): the decoder branch by branch, the two directions of the encoding,
and the opcode map.
-/

namespace Sys2Proof

variable {v w : Word} {i : Instr}

/-! ### The decoder, branch by branch -/

theorem ifReservedZero_of_eq {lo : Nat} (h : w.extractLsb' lo (28 - lo) = 0) (i : Instr) :
    ifReservedZero w lo i = .ok i := if_pos h

theorem ifReservedZero_of_ne {lo : Nat} (h : w.extractLsb' lo (28 - lo) ≠ 0) (i : Instr) :
    ifReservedZero w lo i = .error .reservedBits := if_neg h

theorem decode_opcode_push (h : opcodeOf w = 0x1) : decode w = ifReservedZero w 8 (.push (loByte w)) := by
  simp [decode, h]

theorem decode_opcode_eos (h : opcodeOf w = 0x2) : decode w = ifReservedZero w 0 .eos := by
  simp [decode, h]

theorem decode_opcode_rdreg (h : opcodeOf w = 0x3) : decode w = ifReservedZero w 8 (.rdreg (loByte w)) := by
  simp [decode, h]

theorem decode_opcode_getbit (h : opcodeOf w = 0x4) :
    decode w = ifReservedZero w 16 (.getbit (hiByte w).toInt (loByte w)) := by
  simp [decode, h]

theorem decode_opcode_mapc (h : opcodeOf w = 0x5) :
    decode w = ifReservedZero w 16 (.mapc (loByte w) (hiByte w)) := by
  simp [decode, h]

theorem decode_opcode_sizc (h : opcodeOf w = 0x6) :
    decode w = ifReservedZero w 9 (.sizc (selOf w) (loByte w)) := by
  simp [decode, h]

theorem decode_opcode_clear (h : opcodeOf w = 0xF) : decode w = ifReservedZero w 0 .clear := by
  simp [decode, h]

theorem decode_opcode_reserved (h : opcodeOf w = 0x0 ∨ (7 ≤ (opcodeOf w).toNat ∧ (opcodeOf w).toNat ≤ 14)) :
    decode w = .error .reservedOpcode := by
  have hne (c : BitVec 4) (hc : (1 ≤ c.toNat ∧ c.toNat ≤ 6) ∨ c.toNat = 15) : opcodeOf w ≠ c := by
    rintro rfl
    rcases h with h | h
    · simp [h] at hc
    · omega
  simp only [decode, hne 0x1 (by decide), hne 0x2 (by decide), hne 0x3 (by decide), hne 0x4 (by decide),
    hne 0x5 (by decide), hne 0x6 (by decide), hne 0xF (by decide), if_false]

/-- Settles O1: each word is one the formats write out. -/
theorem knownWordsDecode : Obligations.KnownWordsDecode := by
  refine ⟨?_, ?_, ?_, ?_, ?_, ?_, ?_, ?_, ?_⟩ <;> decide

/-! ### Decode after encode, and encode after decode -/

theorem decode_encode (h : i.wf = true) : decode (encode i) = .ok i := by
  cases i with
  | push b => exact decode_encode_push b
  | eos => exact decode_encode_eos
  | rdreg idx => exact decode_encode_rdreg idx
  | getbit pos b =>
    have hpos : posInRange pos := of_decide_eq_true h
    rw [decode_encode_getbit, toInt_ofInt_of_inRange hpos]
  | mapc f6 f7 => exact decode_encode_mapc f6 f7
  | sizc sel n => exact decode_encode_sizc sel n
  | clear => exact decode_encode_clear

/-- Settles O2, constructor by constructor. -/
theorem decodeOfEncodeIsTheInstruction : Obligations.DecodeOfEncodeIsTheInstruction := fun _ h => decode_encode h

/-- A word is its opcode, its reserved bits `w[27 : lo]` and the operand bits below them. -/
theorem word_eq_of_fields {lo : Nat} (hop : opcodeOf v = opcodeOf w) (hv : v.extractLsb' lo (28 - lo) = 0)
    (hw : w.extractLsb' lo (28 - lo) = 0) (hlow : ∀ k < lo, v.getLsbD k = w.getLsbD k) : v = w := by
  refine BitVec.eq_of_getLsbD_eq fun k hk => ?_
  rcases Nat.lt_or_ge k lo with hlo | hlo
  · exact hlow k hlo
  rcases Nat.lt_or_ge k 28 with h28 | h28
  · rw [getLsbD_of_field_zero hv hlo (by omega), getLsbD_of_field_zero hw hlo (by omega)]
  · obtain ⟨j, rfl⟩ := Nat.exists_eq_add_of_le h28
    rw [getLsbD_of_opcode hop j (by omega), getLsbD_of_opcode rfl j (by omega)]

theorem getLsbD_eq_of_loByte (h : loByte v = loByte w) {k : Nat} (hk : k < 8) : v.getLsbD k = w.getLsbD k := by
  simpa [loByte, hk] using congrArg (fun b => b.getLsbD k) h

theorem getLsbD_eq_of_bytes (hlo : loByte v = loByte w) (hhi : hiByte v = hiByte w) {k : Nat} (hk : k < 16) :
    v.getLsbD k = w.getLsbD k := by
  rcases Nat.lt_or_ge k 8 with h8 | h8
  · exact getLsbD_eq_of_loByte hlo h8
  · obtain ⟨j, rfl⟩ := Nat.exists_eq_add_of_le h8
    simpa [hiByte, show j < 8 by omega] using congrArg (fun b => b.getLsbD j) hhi

theorem getLsbD_eight_eq (w : Word) : w.getLsbD 8 = decide (selOf w = .chr) := by
  unfold selOf; split <;> simp_all

/-- No command has two words: its opcode and its operands give every bit that its format does not reserve. -/
theorem decode_injective (hv : decode v = .ok i) (hw : decode w = .ok i) : v = w := by
  have hw := decode_ok_cases hw
  rcases decode_ok_cases hv with ⟨hop, hz, rfl⟩ | ⟨hop, hz, rfl⟩ | ⟨hop, hz, rfl⟩ | ⟨hop, hz, rfl⟩ | ⟨hop, hz, rfl⟩ |
    ⟨hop, hz, rfl⟩ | ⟨hop, hz, rfl⟩
  · obtain ⟨hop', hz', hlo⟩ : opcodeOf w = 0x1 ∧ w.extractLsb' 8 20 = 0 ∧ loByte v = loByte w := by simpa using hw
    exact word_eq_of_fields (hop.trans hop'.symm) hz hz' fun k hk => getLsbD_eq_of_loByte hlo hk
  · obtain ⟨hop', hz'⟩ : opcodeOf w = 0x2 ∧ w.extractLsb' 0 28 = 0 := by simpa using hw
    exact word_eq_of_fields (hop.trans hop'.symm) hz hz' fun k hk => absurd hk k.not_lt_zero
  · obtain ⟨hop', hz', hlo⟩ : opcodeOf w = 0x3 ∧ w.extractLsb' 8 20 = 0 ∧ loByte v = loByte w := by simpa using hw
    exact word_eq_of_fields (hop.trans hop'.symm) hz hz' fun k hk => getLsbD_eq_of_loByte hlo hk
  · obtain ⟨hop', hz', hhi, hlo⟩ : opcodeOf w = 0x4 ∧ w.extractLsb' 16 12 = 0 ∧ hiByte v = hiByte w
        ∧ loByte v = loByte w := by simpa [BitVec.toInt_inj] using hw
    exact word_eq_of_fields (hop.trans hop'.symm) hz hz' fun k hk => getLsbD_eq_of_bytes hlo hhi hk
  · obtain ⟨hop', hz', hlo, hhi⟩ : opcodeOf w = 0x5 ∧ w.extractLsb' 16 12 = 0 ∧ loByte v = loByte w
        ∧ hiByte v = hiByte w := by simpa using hw
    exact word_eq_of_fields (hop.trans hop'.symm) hz hz' fun k hk => getLsbD_eq_of_bytes hlo hhi hk
  · obtain ⟨hop', hz', hsel, hlo⟩ : opcodeOf w = 0x6 ∧ w.extractLsb' 9 19 = 0 ∧ selOf v = selOf w
        ∧ loByte v = loByte w := by simpa using hw
    refine word_eq_of_fields (hop.trans hop'.symm) hz hz' fun k hk => ?_
    rcases Nat.lt_succ_iff_lt_or_eq.mp hk with h8 | rfl
    · exact getLsbD_eq_of_loByte hlo h8
    · rw [getLsbD_eight_eq v, getLsbD_eight_eq w, hsel]
  · obtain ⟨hop', hz'⟩ : opcodeOf w = 0xF ∧ w.extractLsb' 0 28 = 0 := by simpa using hw
    exact word_eq_of_fields (hop.trans hop'.symm) hz hz' fun k hk => absurd hk k.not_lt_zero

theorem encode_of_decode (h : decode w = .ok i) : encode i = w :=
  decode_injective (decode_encode (Machine.wf_of_decode_ok h)) h

/-- Settles O3: the word of the instruction decodes to it too, and decoding is injective. -/
theorem encodeOfDecodeIsTheWord : Obligations.EncodeOfDecodeIsTheWord :=
  fun _ _ h => ⟨Machine.wf_of_decode_ok h, encode_of_decode h⟩

/-! ### The opcode map -/

/-- Where the mask of a row is all ones, a selected word has the row's pattern. -/
theorem field_of_selects {r : OpcodeRow} {lo n : Nat} (h : r.selects w = true)
    (hm : r.mask.extractLsb' lo n = BitVec.allOnes n) : w.extractLsb' lo n = r.pat.extractLsb' lo n := by
  have hw : w &&& r.mask = r.pat := by simpa [OpcodeRow.selects] using h
  rw [← hw, BitVec.extractLsb'_and, hm, BitVec.and_allOnes]

/-- Every row asks for its opcode. -/
theorem opcodeOf_of_selects {r : OpcodeRow} (hr : r ∈ opcodeTable) (h : r.selects w = true) :
    opcodeOf w = opcodeOf r.pat := by
  have hmask : ∀ r ∈ opcodeTable, r.mask.extractLsb' 28 4 = BitVec.allOnes 4 := by decide
  exact field_of_selects h (hmask r hr)

/-- A selected word has the row's opcode and no reserved bit, so it decodes to the row's mnemonic. -/
theorem decode_of_selects {r : OpcodeRow} (hr : r ∈ opcodeTable) (h : r.selects w = true) :
    ∃ i, decode w = .ok i ∧ i.mnemonic = r.mnemonic := by
  have hop := opcodeOf_of_selects hr h
  simp only [opcodeTable, List.mem_cons, List.not_mem_nil, or_false] at hr
  rcases hr with rfl | rfl | rfl | rfl | rfl | rfl | rfl
  · exact ⟨_, (decode_opcode_push hop).trans (ifReservedZero_of_eq (field_of_selects h (by decide)) _), rfl⟩
  · exact ⟨_, (decode_opcode_eos hop).trans (ifReservedZero_of_eq (field_of_selects h (by decide)) _), rfl⟩
  · exact ⟨_, (decode_opcode_rdreg hop).trans (ifReservedZero_of_eq (field_of_selects h (by decide)) _), rfl⟩
  · exact ⟨_, (decode_opcode_getbit hop).trans (ifReservedZero_of_eq (field_of_selects h (by decide)) _), rfl⟩
  · exact ⟨_, (decode_opcode_mapc hop).trans (ifReservedZero_of_eq (field_of_selects h (by decide)) _), rfl⟩
  · exact ⟨_, (decode_opcode_sizc hop).trans (ifReservedZero_of_eq (field_of_selects h (by decide)) _), rfl⟩
  · exact ⟨_, (decode_opcode_clear hop).trans (ifReservedZero_of_eq (field_of_selects h (by decide)) _), rfl⟩

theorem row_selects_encode (i : Instr) : ∃ r ∈ opcodeTable, r.mnemonic = i.mnemonic ∧ r.selects (encode i) = true := by
  cases i with
  | push b => exact Laws.EncodedRow.push b
  | eos => exact Laws.EncodedRow.eos
  | rdreg idx => exact Laws.EncodedRow.rdreg idx
  | getbit pos b => exact Laws.EncodedRow.getbit pos b
  | mapc f6 f7 => exact Laws.EncodedRow.mapc f6 f7
  | sizc sel n => exact Laws.EncodedRow.sizc sel n
  | clear => exact Laws.EncodedRow.clear

/-- A word that decodes is the word of its instruction, and a row selects that. -/
theorem row_selects_of_decode (h : decode w = .ok i) :
    ∃ r ∈ opcodeTable, r.mnemonic = i.mnemonic ∧ r.selects w = true :=
  encode_of_decode h ▸ row_selects_encode i

theorem mnemonic_eq_push : i.mnemonic = "PUSH" ↔ ∃ b, i = .push b := by cases i <;> simp [Instr.mnemonic]

theorem mnemonic_eq_eos : i.mnemonic = "EOS" ↔ i = .eos := by cases i <;> simp [Instr.mnemonic]

theorem mnemonic_eq_rdreg : i.mnemonic = "RDREG" ↔ ∃ b, i = .rdreg b := by cases i <;> simp [Instr.mnemonic]

theorem mnemonic_eq_getbit : i.mnemonic = "GETBIT" ↔ ∃ a b, i = .getbit a b := by cases i <;> simp [Instr.mnemonic]

theorem mnemonic_eq_mapc : i.mnemonic = "MAPC" ↔ ∃ a b, i = .mapc a b := by cases i <;> simp [Instr.mnemonic]

theorem mnemonic_eq_sizc : i.mnemonic = "SIZC" ↔ ∃ a b, i = .sizc a b := by cases i <;> simp [Instr.mnemonic]

theorem mnemonic_eq_clear : i.mnemonic = "CLEAR" ↔ i = .clear := by cases i <;> simp [Instr.mnemonic]

theorem row_eq_of_mnemonic :
    ∀ r₁ ∈ opcodeTable, ∀ r₂ ∈ opcodeTable, r₁.mnemonic = r₂.mnemonic → r₁ = r₂ := by decide

theorem row_eq_of_opcode :
    ∀ r₁ ∈ opcodeTable, ∀ r₂ ∈ opcodeTable, opcodeOf r₁.pat = opcodeOf r₂.pat → r₁ = r₂ := by decide

/-- A row selects a word exactly when the word decodes to the row's mnemonic (30_encoding.md R93). -/
theorem and_mask_eq_pat_iff {m : String} {pat mask : Word} (hr : ⟨m, pat, mask⟩ ∈ opcodeTable) (w : Word) :
    w &&& mask = pat ↔ ∃ i, decode w = .ok i ∧ i.mnemonic = m := by
  refine ⟨fun h => decode_of_selects hr (beq_iff_eq.mpr h), ?_⟩
  rintro ⟨i, hd, hi⟩
  obtain ⟨r, hr', hm, hs⟩ := row_selects_of_decode hd
  obtain rfl := row_eq_of_mnemonic r hr' _ hr (hm.trans hi)
  exact beq_iff_eq.mp hs

theorem decode_error_iff_no_row :
    (∀ r ∈ opcodeTable, r.selects w = false) ↔ ∃ e, decode w = .error e := by
  cases hd : decode w with
  | error e =>
    refine iff_of_true (fun r hr => Bool.eq_false_iff.mpr fun hs => ?_) ⟨e, rfl⟩
    obtain ⟨i, hi, -⟩ := decode_of_selects hr hs
    rw [hd] at hi
    cases hi
  | ok i =>
    obtain ⟨r, hr, -, hs⟩ := row_selects_of_decode hd
    exact iff_of_false (fun hno => by simp [hno r hr] at hs) (by simp)

/-- Settles O4: each row is the format of the commands with its mnemonic, and two rows differ in the opcode. -/
theorem decodeFollowsTheOpcodeMap : Obligations.DecodeFollowsTheOpcodeMap := by
  intro w
  refine ⟨?_, ?_, ?_, ?_, ?_, ?_, ?_, ?_, decode_error_iff_no_row⟩
  · exact (and_mask_eq_pat_iff (m := "PUSH") (by decide) w).trans (by simp [mnemonic_eq_push])
  · exact (and_mask_eq_pat_iff (m := "EOS") (by decide) w).trans (by simp [mnemonic_eq_eos])
  · exact (and_mask_eq_pat_iff (m := "RDREG") (by decide) w).trans (by simp [mnemonic_eq_rdreg])
  · exact (and_mask_eq_pat_iff (m := "GETBIT") (by decide) w).trans (by simp [mnemonic_eq_getbit])
  · exact (and_mask_eq_pat_iff (m := "MAPC") (by decide) w).trans (by simp [mnemonic_eq_mapc])
  · exact (and_mask_eq_pat_iff (m := "SIZC") (by decide) w).trans (by simp [mnemonic_eq_sizc])
  · exact (and_mask_eq_pat_iff (m := "CLEAR") (by decide) w).trans (by simp [mnemonic_eq_clear])
  · intro r₁ h₁ r₂ h₂ hs₁ hs₂
    exact row_eq_of_opcode r₁ h₁ r₂ h₂ ((opcodeOf_of_selects h₁ hs₁).symm.trans (opcodeOf_of_selects h₂ hs₂))

end Sys2Proof

/-!
SUPPORT. What every command word is answered (30_encoding.md R94, R95, R98, 60_exceptions.md R230): the error of a malformed
word, the response of a step, and the states in which no step stops (logs 7 and 8).
-/

namespace Sys2Proof.Machine

open Sys2Proof

variable {s t : State} {w : Word} {rest : List HostAct}

/-! ### Malformed words -/

theorem step_command (h : s.issue = .command w :: rest) : step s = execute w { s with issue := rest } := by
  simp [step, h]

/-- A word that is no command raises IllegalCommand with the word. -/
theorem step_of_decode_error {e : Illegal} (h : s.issue = .command w :: rest) (he : decode w = .error e) :
    step s = .next (raise .illegalCommand w { s with issue := rest }) := by
  simp [step_command h, execute, he, executeIllegal]

/-- A reserved opcode, or a defined opcode with a nonzero bit that its format reserves (30_encoding.md R94, R95). -/
def Malformed (w : Word) : Prop :=
  (opcodeOf w = 0x0 ∨ (7 ≤ (opcodeOf w).toNat ∧ (opcodeOf w).toNat ≤ 14))
    ∨ (opcodeOf w = 0x1 ∧ w.extractLsb' 8 20 ≠ 0)
    ∨ (opcodeOf w = 0x2 ∧ w.extractLsb' 0 28 ≠ 0)
    ∨ (opcodeOf w = 0x3 ∧ w.extractLsb' 8 20 ≠ 0)
    ∨ (opcodeOf w = 0x4 ∧ w.extractLsb' 16 12 ≠ 0)
    ∨ (opcodeOf w = 0x5 ∧ w.extractLsb' 16 12 ≠ 0)
    ∨ (opcodeOf w = 0x6 ∧ w.extractLsb' 9 19 ≠ 0)
    ∨ (opcodeOf w = 0xF ∧ w.extractLsb' 0 28 ≠ 0)

theorem Malformed.decode_error (h : Malformed w) : ∃ e, decode w = .error e := by
  rcases h with hop | ⟨hop, hz⟩ | ⟨hop, hz⟩ | ⟨hop, hz⟩ | ⟨hop, hz⟩ | ⟨hop, hz⟩ | ⟨hop, hz⟩ | ⟨hop, hz⟩
  · exact ⟨_, decode_opcode_reserved hop⟩
  · exact ⟨_, (decode_opcode_push hop).trans (ifReservedZero_of_ne hz _)⟩
  · exact ⟨_, (decode_opcode_eos hop).trans (ifReservedZero_of_ne hz _)⟩
  · exact ⟨_, (decode_opcode_rdreg hop).trans (ifReservedZero_of_ne hz _)⟩
  · exact ⟨_, (decode_opcode_getbit hop).trans (ifReservedZero_of_ne hz _)⟩
  · exact ⟨_, (decode_opcode_mapc hop).trans (ifReservedZero_of_ne hz _)⟩
  · exact ⟨_, (decode_opcode_sizc hop).trans (ifReservedZero_of_ne hz _)⟩
  · exact ⟨_, (decode_opcode_clear hop).trans (ifReservedZero_of_ne hz _)⟩

/-- Settles O5: a malformed word does not decode. -/
theorem reservedWordRaisesIllegalCommand : Obligations.ReservedWordRaisesIllegalCommand := by
  intro s w rest hi hw
  have hw : Malformed w := hw
  obtain ⟨e, he⟩ := hw.decode_error
  exact ⟨_, step_of_decode_error hi he, raise_raised _ _ _⟩

/-! ### Every answer has a response -/

/-- From `s` with the command off the host's list, `t` is an answer: the list stands, and so does a response, with the
value 0 unless its status is OK (30_encoding.md R98). -/
def Answered (s t : State) : Prop := t.issue = s.issue ∧ ∃ r, t.resp = some r ∧ (r.st ≠ .ok → r.val = 0)

theorem answered_respond_ok (h : t.issue = s.issue) (v : Word) : Answered s (respond .ok v t) :=
  ⟨h, _, rfl, fun hne => absurd rfl hne⟩

theorem answered_respond_aborted (h : t.issue = s.issue) : Answered s (respond .aborted 0 t) :=
  ⟨h, _, rfl, fun _ => rfl⟩

theorem answered_raise (h : t.issue = s.issue) (e : ErrorCode) (info : Word) : Answered s (raise e info t) :=
  ⟨(raise_issue e info t).trans h, _, raise_resp e info t, fun _ => rfl⟩

theorem answered_execPush {b : Byte} (ht : execPush b s = .next t) : Answered s t := by
  rcases execPush_cases ht with ⟨-, rfl⟩ | ⟨-, -, rfl⟩ | ⟨-, -, -, rfl⟩ | ⟨-, -, -, -, rfl⟩ | ⟨-, -, -, -, rfl⟩ |
    ⟨d, -, -, -, rfl⟩ | ⟨d, -, -, -, rfl⟩ | ⟨-, -, rfl⟩
  · exact answered_respond_aborted rfl
  · exact answered_raise rfl _ _
  · exact answered_respond_ok rfl _
  · exact answered_raise rfl _ _
  · exact answered_respond_ok (latch_issue _ _) _
  · exact answered_respond_ok rfl _
  · exact answered_respond_ok rfl _
  · exact answered_respond_ok rfl _

/-- A command that answers a next state has a response there. -/
theorem answered_exec {i : Instr} (ht : exec i s = .next t) : Answered s t := by
  cases i with
  | push b => exact answered_execPush ht
  | eos =>
    rcases execEos_cases ht with ⟨-, rfl⟩ | ⟨-, rfl⟩ | ⟨-, rfl⟩
    · exact answered_respond_aborted rfl
    · exact answered_raise rfl _ _
    · exact answered_respond_ok rfl _
  | rdreg idx =>
    rcases execRdreg_cases ht with ⟨-, rfl⟩ | ⟨r, v, -, -, -, rfl⟩ | ⟨r, -, -, rfl⟩
    · exact answered_raise rfl _ _
    · exact answered_respond_ok rfl _
    · exact answered_raise rfl _ _
  | getbit pos b =>
    rcases execGetbit_cases ht with ⟨-, rfl⟩ | ⟨-, -, -, rfl⟩ | ⟨-, -, rfl⟩
    · exact answered_respond_aborted rfl
    · exact answered_respond_ok rfl _
    · exact answered_raise rfl _ _
  | mapc f6 f7 =>
    rcases execMapc_cases ht with ⟨-, rfl⟩ | ⟨-, rfl⟩
    · exact answered_respond_aborted rfl
    · exact answered_respond_ok rfl _
  | sizc sel n =>
    rcases execSizc_cases ht with ⟨-, rfl⟩ | ⟨-, rfl⟩
    · exact answered_respond_aborted rfl
    · exact answered_respond_ok rfl _
  | clear => cases ht; exact answered_respond_ok (clearBlock_issue s) 0

theorem answered_step (hi : s.issue = .command w :: rest) (ht : step s = .next t) :
    Answered { s with issue := rest } t := by
  rw [step_command hi] at ht
  unfold execute at ht
  cases hd : decode w with
  | error e => rw [hd] at ht; cases ht; exact answered_raise rfl _ _
  | ok i => rw [hd] at ht; exact answered_exec ht

/-! ### Where no command stops -/

/-- The state is none of those in which PUSH has no meaning: a full header buffer in phase HDR (log 7), or PRG or CHR
without a decoded group (log 8). -/
structure PushHasMeaning (s : State) : Prop where
  room : s.phase = .hdr → s.hdrCnt.toNat < 16
  group : s.phase = .prg ∨ s.phase = .chr → s.decoded.isSome = true

theorem pushHeader_answers (h : s.hdrCnt.toNat < 16) (b : Byte) : ∃ t, pushHeader b s = .next t := by
  rcases Nat.lt_succ_iff_lt_or_eq.mp h with hlt | heq
  · exact ⟨_, pushHeader_early hlt⟩
  · exact ⟨_, pushHeader_last (BitVec.eq_of_toNat_eq heq)⟩

theorem PushHasMeaning.execPush_answers (h : PushHasMeaning s) (b : Byte) : ∃ t, execPush b s = .next t := by
  by_cases herr : s.phase = .error
  · exact ⟨_, execPush_aborted herr⟩
  by_cases heos : s.eosSeen = true
  · exact ⟨_, execPush_afterEos herr heos⟩
  rw [Bool.not_eq_true] at heos
  cases hp : s.phase with
  | hdr => rw [execPush_hdr hp heos]; exact pushHeader_answers (h.room hp) b
  | prg =>
    obtain ⟨d, hd⟩ := Option.isSome_iff_exists.mp (h.group (.inl hp))
    exact ⟨_, execPush_prg hp heos hd⟩
  | chr =>
    obtain ⟨d, hd⟩ := Option.isSome_iff_exists.mp (h.group (.inr hp))
    exact ⟨_, execPush_chr hp heos hd⟩
  | done => exact ⟨_, execPush_done hp heos⟩
  | error => exact absurd hp herr

theorem unlessError_answers {act : State → Result} (h : ∃ t, act s = .next t) : ∃ t, unlessError s act = .next t := by
  by_cases hp : s.phase = .error
  · exact ⟨_, unlessError_of_eq hp⟩
  · rwa [unlessError_of_ne hp]

/-- Only PUSH can stop. -/
theorem PushHasMeaning.exec_answers (h : PushHasMeaning s) (i : Instr) : ∃ t, exec i s = .next t := by
  cases i with
  | push b => exact h.execPush_answers b
  | eos => rw [exec, execEos]; exact unlessError_answers ⟨_, rfl⟩
  | rdreg idx => cases hr : Reg.ofIndex idx <;> exact ⟨_, by rw [exec, execRdreg, hr]⟩
  | getbit pos b =>
    rw [exec, execGetbit]
    refine unlessError_answers ?_
    cases getBit b pos <;> exact ⟨_, rfl⟩
  | mapc f6 f7 => rw [exec, execMapc]; exact unlessError_answers ⟨_, rfl⟩
  | sizc sel n => rw [exec, execSizc]; exact unlessError_answers ⟨_, rfl⟩
  | clear => exact ⟨_, execClear_eq s⟩

theorem PushHasMeaning.step_answers (h : PushHasMeaning s) (hi : s.issue = .command w :: rest) :
    ∃ t, step s = .next t := by
  cases hd : decode w with
  | error e => exact ⟨_, step_of_decode_error hi hd⟩
  | ok i =>
    have hrest : PushHasMeaning { s with issue := rest } := ⟨h.room, h.group⟩
    obtain ⟨t, ht⟩ := hrest.exec_answers i
    exact ⟨t, by rw [step_command hi, execute, hd]; exact ht⟩

/-- Settles O11: a next state is an answer, and outside the states of logs 7 and 8 there is one. -/
theorem everyCommandIsAnswered : Obligations.EveryCommandIsAnswered := by
  intro s w rest hi
  refine ⟨fun t ht => answered_step hi ht, fun hroom hgroup => ?_⟩
  obtain ⟨t, ht⟩ := PushHasMeaning.step_answers ⟨hroom, hgroup⟩ hi
  obtain ⟨hissue, r, hr, hval⟩ := answered_step hi ht
  exact ⟨t, r, ht, hissue, hr, hval⟩

theorem BlockInv.pushHasMeaning (h : BlockInv s) : PushHasMeaning s where
  room hp := (h.hdr hp).1
  group hp := by
    have hne : s.phase ≠ .hdr ∧ s.phase ≠ .error := by rcases hp with hp | hp <;> simp [hp]
    obtain ⟨d, hd, -⟩ := h.exists_group hne.1 hne.2
    simp [hd]

/-- Settles O37: the invariant shuts out the states in which PUSH has no meaning, and only PUSH can stop. -/
theorem invariantStatesNeverStop : Obligations.InvariantStatesNeverStop := by
  intro s h
  rcases hi : s.issue with _ | ⟨w | _, rest⟩
  · exact ⟨idle s, by simp [step, hi], fun _ _ hc => by cases hc⟩
  · obtain ⟨t, ht⟩ := h.pushHasMeaning.step_answers hi
    obtain ⟨-, r, hr, -⟩ := answered_step hi ht
    exact ⟨t, ht, fun _ _ _ => ⟨r, hr⟩⟩
  · exact ⟨_, by rw [step, hi], fun _ _ hc => by cases hc⟩

/-! ### The response word -/

/-- Settles O7: the word is the code in front of the value. -/
theorem responseWordHoldsStatusAboveValue : Obligations.ResponseWordHoldsStatusAboveValue :=
  fun _ => ⟨BitVec.extractLsb'_append_eq_left, BitVec.extractLsb'_append_eq_right⟩

end Sys2Proof.Machine

/-!
SUPPORT. The assembler (30_encoding.md R99, R100): the words of its forms, the expansions of the pseudo-instructions, and
the refusals.
-/

namespace Sys2Proof.Machine

open Sys2Proof

/-! ### Operands as numbers -/

/-- A byte operand in range stands in its field as the number written. -/
theorem setWidth_ofNat_byte {b : Nat} (h : b ≤ 255) : (BitVec.ofNat 8 b).setWidth 32 = BitVec.ofNat 32 b := by
  apply BitVec.eq_of_toNat_eq
  simp
  omega

/-- `pos & 0xFF`, the low byte of the position's two's complement (30_encoding.md R91). -/
theorem setWidth_ofInt_byte (pos : Int) : (BitVec.ofInt 8 pos).setWidth 32 = BitVec.ofInt 32 pos &&& 0xFF := by
  apply BitVec.eq_of_toNat_eq
  rw [BitVec.toNat_and, BitVec.toNat_setWidth_of_le (by decide), show (0xFF : Word).toNat = 2 ^ 8 - 1 from rfl,
    Nat.and_two_pow_sub_one_eq_mod, BitVec.toNat_ofInt, BitVec.toNat_ofInt]
  omega

/-- A form with one byte operand: the number written, in its field of the word. -/
theorem map_asmByte_nat (f : Word → Word) (b : Nat) :
    (asmByte b).map (fun b => [f (b.setWidth 32)]) = if b ≤ 255 then some [f (BitVec.ofNat 32 b)] else none := by
  rw [asmByte_nat]
  split
  · next h => rw [Option.map_some, setWidth_ofNat_byte h]
  · rfl

/-! ### The forms -/

theorem assemble_push_nat (b : Nat) :
    assemble (.push b) = if b ≤ 255 then some [0x10000000 ||| BitVec.ofNat 32 b] else none :=
  map_asmByte_nat (0x10000000 ||| ·) b

theorem assemble_rdreg_nat (idx : Nat) :
    assemble (.rdreg idx) = if idx ≤ 255 then some [0x30000000 ||| BitVec.ofNat 32 idx] else none :=
  map_asmByte_nat (0x30000000 ||| ·) idx

theorem assemble_sizc_nat (sel : Region) (n : Nat) :
    assemble (.sizc sel n)
      = if n ≤ 255 then some [0x60000000 ||| (selBit sel <<< 8) ||| BitVec.ofNat 32 n] else none :=
  map_asmByte_nat (0x60000000 ||| (selBit sel <<< 8) ||| ·) n

theorem assemble_getbit_nat (pos : Int) (b : Nat) :
    assemble (.getbit pos b) = if -128 ≤ pos ∧ pos ≤ 127 ∧ b ≤ 255
      then some [0x40000000 ||| ((BitVec.ofInt 32 pos &&& 0xFF) <<< 8) ||| BitVec.ofNat 32 b] else none := by
  have hb := map_asmByte_nat (0x40000000 ||| ((BitVec.ofInt 8 pos).setWidth 32 <<< 8) ||| ·) b
  rw [setWidth_ofInt_byte] at hb
  simp only [assemble, encode, setWidth_ofInt_byte, hb, ← ite_and, and_assoc]

theorem assemble_mapc_nat (f6 f7 : Nat) :
    assemble (.mapc f6 f7) = if f6 ≤ 255 ∧ f7 ≤ 255
      then some [0x50000000 ||| (BitVec.ofNat 32 f7 <<< 8) ||| BitVec.ofNat 32 f6] else none := by
  rw [assemble, asmByte_nat, ite_and]
  split
  · next h6 =>
    rw [← setWidth_ofNat_byte h6]
    exact map_asmByte_nat (fun v => 0x50000000 ||| (v <<< 8) ||| (BitVec.ofNat 8 f6).setWidth 32) f7
  · rfl

theorem assemble_word_nat (w : Nat) :
    assemble (.word w) = if w < 4294967296 then some [BitVec.ofNat 32 w] else none := by
  rw [assemble, BitVec.ofInt_natCast]
  exact if_congr (by omega) rfl rfl

/-- No form takes a negative number but GETBIT for its position. -/
theorem assemble_neg {b : Int} (h : b < 0) :
    assemble (.push b) = none ∧ assemble (.rdreg b) = none
      ∧ assemble (.sizc .prg b) = none ∧ assemble (.sizc .chr b) = none ∧ assemble (.word b) = none
      ∧ ∀ o : Int, assemble (.getbit o b) = none ∧ assemble (.mapc b o) = none ∧ assemble (.mapc o b) = none := by
  have hb : asmByte b = none := asmByte_outOfRange (.inl h)
  have hw : ¬ (0 ≤ b ∧ b < 4294967296) := by omega
  exact ⟨by simp [assemble, hb], by simp [assemble, hb], by simp [assemble, hb], by simp [assemble, hb],
    if_neg hw, fun o => ⟨by simp [assemble, hb], by simp [assemble, hb], by simp [assemble, hb]⟩⟩

/-- Settles O49: an equation per form. -/
theorem assemblerFormsAreAsListed : Obligations.AssemblerFormsAreAsListed :=
  ⟨rfl, rfl, assemble_push_nat, assemble_rdreg_nat, fun _ => rfl, assemble_getbit_nat, assemble_mapc_nat,
    assemble_sizc_nat .prg, assemble_sizc_nat .chr, assemble_word_nat, fun _ h => assemble_neg h⟩

/-! ### The pseudo-instructions -/

theorem assemble_pushN (n : Nat) (b : Byte) :
    assemble (.pushN n b.toNat) = some (pushWords (List.replicate n b)) := by
  rw [assemble, if_pos (Int.natCast_nonneg n), asmByte_byte, Option.map_some, Int.toNat_natCast]

theorem assemble_pushN_neg {n : Int} (h : n < 0) (b : Int) : assemble (.pushN n b) = none := if_neg (by omega)

theorem assemble_pushS {bs : List Byte} (h : bs ≠ []) :
    assemble (.pushS (bs.map fun b => (b.toNat : Int))) = some (pushWords bs) := by
  rw [assemble, if_neg (by simpa using h), asmBytes_bytes, Option.map_some]

theorem assemble_header (bs : List Byte) :
    assemble (.header (bs.map fun b => (b.toNat : Int))) = if bs.length = 16 then some (pushWords bs) else none := by
  rw [assemble, List.length_map, asmBytes_bytes, Option.map_some]

/-- Settles O50: each expansion is `pushWords` of its bytes. -/
theorem pseudoInstructionsExpandToPushes : Obligations.PseudoInstructionsExpandToPushes := by
  refine ⟨fun n b => ?_, fun bs h => assemble_pushS h, assemble_header, fun _ => rfl, fun n b h => assemble_pushN_neg h b⟩
  rw [assemble_pushN, pushWords, List.map_replicate, encode]

/-- Settles O52: one byte out of range refuses the operands. -/
theorem pseudoInstructionsRefuseOperandsOutOfRange : Obligations.PseudoInstructionsRefuseOperandsOutOfRange := by
  refine ⟨fun n b h => ?_, fun bs b hb h => ?_, rfl⟩
  · simp [assemble, asmByte_outOfRange h]
  · have hbs := asmBytes_outOfRange hb h
    exact ⟨by simp [assemble, hbs], by simp [assemble, hbs]⟩

/-! ### The words of a line -/

/-- The word is a well-formed command's, and decodes to it. -/
def IsCommandWord (w : Word) : Prop := ∃ i : Instr, i.wf = true ∧ encode i = w ∧ decode w = .ok i

theorem isCommandWord_encode {i : Instr} (h : i.wf = true) : IsCommandWord (encode i) :=
  ⟨i, h, rfl, decode_encode h⟩

theorem isCommandWord_of_mem_pushWords {bs : List Byte} {w : Word} (hw : w ∈ pushWords bs) : IsCommandWord w := by
  obtain ⟨b, -, rfl⟩ := List.mem_map.mp hw
  exact isCommandWord_encode rfl

theorem isCommandWord_of_mem_singleton {i : Instr} {w : Word} (h : i.wf = true) (hw : w ∈ [encode i]) :
    IsCommandWord w := by
  obtain rfl := List.mem_singleton.mp hw
  exact isCommandWord_encode h

/-- Settles O51: a line gives one command's word, or the words of pushes. -/
theorem assembledWordsAreCommands : Obligations.AssembledWordsAreCommands := by
  intro line ws hline hws w hw
  cases line with
  | push b =>
    obtain ⟨b, -, rfl⟩ := Option.map_eq_some_iff.mp hws
    exact isCommandWord_of_mem_singleton rfl hw
  | eos => cases hws; exact isCommandWord_of_mem_singleton rfl hw
  | rdreg idx =>
    obtain ⟨idx, -, rfl⟩ := Option.map_eq_some_iff.mp hws
    exact isCommandWord_of_mem_singleton rfl hw
  | rdregNamed r => cases hws; exact isCommandWord_of_mem_singleton rfl hw
  | getbit pos b =>
    obtain ⟨hpos, hws⟩ := Option.ite_none_right_eq_some.mp hws
    obtain ⟨b, -, rfl⟩ := Option.map_eq_some_iff.mp hws
    have hwf : (Instr.getbit pos b).wf = true := decide_eq_true hpos
    exact isCommandWord_of_mem_singleton hwf hw
  | mapc f6 f7 =>
    obtain ⟨f6, -, hws⟩ := Option.bind_eq_some_iff.mp hws
    obtain ⟨f7, -, rfl⟩ := Option.map_eq_some_iff.mp hws
    exact isCommandWord_of_mem_singleton rfl hw
  | sizc sel n =>
    obtain ⟨n, -, rfl⟩ := Option.map_eq_some_iff.mp hws
    exact isCommandWord_of_mem_singleton rfl hw
  | clear => cases hws; exact isCommandWord_of_mem_singleton rfl hw
  | word v => exact absurd rfl (hline v)
  | pushN n b =>
    obtain ⟨-, hws⟩ := Option.ite_none_right_eq_some.mp hws
    obtain ⟨b, -, rfl⟩ := Option.map_eq_some_iff.mp hws
    exact isCommandWord_of_mem_pushWords hw
  | pushS bs =>
    obtain ⟨-, hws⟩ := Option.ite_none_left_eq_some.mp hws
    obtain ⟨bs, -, rfl⟩ := Option.map_eq_some_iff.mp hws
    exact isCommandWord_of_mem_pushWords hw
  | header bs =>
    obtain ⟨-, hws⟩ := Option.ite_none_right_eq_some.mp hws
    obtain ⟨bs, -, rfl⟩ := Option.map_eq_some_iff.mp hws
    exact isCommandWord_of_mem_pushWords hw
  | feed bs => cases hws; exact isCommandWord_of_mem_pushWords hw

end Sys2Proof.Machine

/-!
SUPPORT. The HeaderDecoder's utilities (40_header_decoder.md R123 to R133): GETBIT and MAPC outside phase ERROR, the
mapper word and the mapper names, and the `FIELDS` word.
-/

namespace Sys2Proof.Machine

open Sys2Proof

variable {s : State}

/-! ### Bit fields of words -/

theorem extractLsb'_eq_zero_of_bits {w i n : Nat} {v : BitVec w} (h : ∀ k < n, v.getLsbD (i + k) = false) :
    v.extractLsb' i n = 0 := by
  ext k hk
  rw [BitVec.getElem_extractLsb', h k hk, BitVec.ofNat_eq_ofNat, BitVec.getElem_zero]

theorem extractLsb'_eq_of_bits {w w' i j n : Nat} {v : BitVec w} {x : BitVec w'}
    (h : ∀ k < n, v.getLsbD (i + k) = x.getLsbD (j + k)) : v.extractLsb' i n = x.extractLsb' j n := by
  ext k hk
  rw [BitVec.getElem_extractLsb', BitVec.getElem_extractLsb', h k hk]

/-- A field of the low byte of a word is that field of its low byte. -/
theorem extractLsb'_low_byte (v : Word) {i n : Nat} (h : i + n ≤ 8) :
    v.extractLsb' i n = (v.extractLsb' 0 8).extractLsb' i n := by
  refine extractLsb'_eq_of_bits fun k hk => ?_
  rw [BitVec.getLsbD_extractLsb', Nat.zero_add, decide_eq_true (by omega), Bool.true_and]

/-! ### MAPC and the mapper word -/

theorem exec_mapc_of_ne (hp : s.phase ≠ .error) (f6 f7 : Byte) :
    exec (.mapc f6 f7) s = .next (respond .ok (mapperWord f6 f7) s) := by
  rw [exec, execMapc, unlessError_of_ne hp]

/-- `Named` is the bounds check of the 11-entry table (40_header_decoder.md R129). -/
theorem mapperNamed_iff (id : Byte) : mapperNamed id = true ↔ id.toNat ≤ 10 :=
  decide_eq_true_iff.trans Nat.lt_succ_iff

theorem composeMapper_low (f6 f7 : Byte) : (composeMapper f6 f7).extractLsb' 0 4 = f6.extractLsb' 4 4 := by
  ext k hk; interval_cases k <;> simp [composeMapper]

theorem composeMapper_high (f6 f7 : Byte) : (composeMapper f6 f7).extractLsb' 4 4 = f7.extractLsb' 4 4 := by
  ext k hk; interval_cases k <;> simp [composeMapper]

theorem mapperWord_id (f6 f7 : Byte) : (mapperWord f6 f7).extractLsb' 0 8 = composeMapper f6 f7 := by
  ext k hk; interval_cases k <;> simp [mapperWord]

theorem mapperWord_named (f6 f7 : Byte) : (mapperWord f6 f7).getLsbD 8 = mapperNamed (composeMapper f6 f7) := by
  simp [mapperWord]

theorem mapperWord_reserved (f6 f7 : Byte) : (mapperWord f6 f7).extractLsb' 9 23 = 0 := by
  refine extractLsb'_eq_zero_of_bits fun k hk => ?_
  have habove : (composeMapper f6 f7).getLsbD (9 + k) = false := BitVec.getLsbD_of_ge _ _ (by omega)
  have hclass : 9 + k - 8 ≠ 0 := by omega
  simp [mapperWord, habove, hclass]

/-- Settles O15: the word's low byte is the composed id, and bit 8 is its class. -/
theorem mapcAnswersTheComposedId : Obligations.MapcAnswersTheComposedId := by
  intro f6 f7 s hp
  refine ⟨mapperWord f6 f7, exec_mapc_of_ne hp f6 f7, ?_, ?_, ?_, mapperWord_reserved f6 f7⟩
  · rw [extractLsb'_low_byte _ (by decide), mapperWord_id, composeMapper_low]
  · rw [extractLsb'_low_byte _ (by decide), mapperWord_id, composeMapper_high]
  · rw [mapperWord_named, mapperWord_id, mapperNamed_iff]

/-! ### The FIELDS word -/

/-- Where each bit of `FIELDS` comes from (10_state.md R40); the bits without a source are 0. -/
theorem unpackFields_getLsbD (f6 f7 f9 : Byte) {k : Nat} (hk : k < 32) :
    (unpackFields f6 f7 f9).getLsbD k =
      if k < 4 then f6.getLsbD k
      else if k = 4 then f7.getLsbD 0
      else if k = 5 then f9.getLsbD 0
      else if 8 ≤ k ∧ k < 11 then f7.getLsbD (k - 7)
      else if 16 ≤ k ∧ k < 23 then f9.getLsbD (k - 15)
      else false := by
  unfold unpackFields
  interval_cases k <;> simp

/-- Settles O16: a one-bit field is one bit of `unpackFields_getLsbD`, and a wider field or gap is several. -/
theorem fieldsWordHoldsEveryFlag : Obligations.FieldsWordHoldsEveryFlag := by
  intro f6 f7 f9
  have hbit {k : Nat} (hk : k < 32) := unpackFields_getLsbD f6 f7 f9 hk
  refine ⟨hbit (by decide), hbit (by decide), hbit (by decide), hbit (by decide), hbit (by decide), hbit (by decide),
    extractLsb'_eq_zero_of_bits fun k hk => ?_, extractLsb'_eq_of_bits fun k hk => ?_,
    extractLsb'_eq_zero_of_bits fun k hk => ?_, extractLsb'_eq_of_bits fun k hk => ?_,
    extractLsb'_eq_zero_of_bits fun k hk => ?_⟩
  all_goals
    rw [hbit (by omega)]
    interval_cases k <;> rfl

/-! ### GETBIT -/

theorem exec_getbit_inRange (hp : s.phase ≠ .error) {pos : Int} (h0 : 0 ≤ pos) (h7 : pos ≤ 7) (b : Byte) :
    exec (.getbit pos b) s = .next (respond .ok (bitWord (b.getLsbD pos.toNat)) s) := by
  simp [exec, execGetbit, hp, getBit_inRange h0 h7]

theorem exec_getbit_outOfRange (hp : s.phase ≠ .error) {pos : Int} (h : pos < 0 ∨ 7 < pos) (b : Byte) :
    exec (.getbit pos b) s = .next (raise .invalidBitPosition (BitVec.ofInt 32 pos) s) := by
  simp [exec, execGetbit, hp, getBit_outOfRange h]

/-- Settles O14, on either side of the accessor's range. -/
theorem getbitAnswersTheBitOrRaises : Obligations.GetbitAnswersTheBitOrRaises := by
  intro pos b s hp
  refine ⟨fun ⟨h0, h7⟩ => exec_getbit_inRange hp h0 h7 b, fun h => ?_⟩
  exact ⟨_, exec_getbit_outOfRange hp h b, raise_raised .invalidBitPosition (BitVec.ofInt 32 pos) s⟩

/-! ### The mapper names -/

theorem mapperName_of_ge_two {id : Byte} (h : 2 ≤ id.toNat) :
    mapperName id = if mapperNamed id then some (Config.openMapperName id.toNat) else none := by
  have h0 : id ≠ 0 := by rintro rfl; exact absurd h (by decide)
  have h1 : id ≠ 1 := by rintro rfl; exact absurd h (by decide)
  rw [mapperName, if_neg h0, if_neg h1]

/-- Settles O17: the two names the table gives, and past them the bounds check alone. -/
theorem mapperNamesFollowTheTable : Obligations.MapperNamesFollowTheTable := by
  refine ⟨rfl, rfl, fun id h2 h10 => ?_, fun id h => ?_⟩
  · rw [mapperName_of_ge_two h2, if_pos ((mapperNamed_iff id).mpr h10)]
  · rw [mapperName_of_ge_two (by omega), if_neg (mt (mapperNamed_iff id).mp (by omega))]

end Sys2Proof.Machine

/-!
SUPPORT. The BankExtractor's utilities (41_bank_extractor.md R160 to R177): SIZC outside phase ERROR, the table form of
the CRC step, and the CRC views of the two regions.
-/

namespace Sys2Proof.Machine

open Sys2Proof

variable {s : State}

/-! ### SIZC -/

theorem exec_sizc_of_ne (hp : s.phase ≠ .error) (sel : Region) (n : Byte) :
    exec (.sizc sel n) s = .next (respond .ok (sizeCalc sel n) s) := by
  rw [exec, execSizc, unlessError_of_ne hp]

/-- Settles O18: SIZC and the latch both take their sizes from `sizeCalc`. -/
theorem sizesAreBanksTimesTheUnit : Obligations.SizesAreBanksTimesTheUnit := by
  refine ⟨fun n s hp => ?_, fun d => ?_⟩
  · exact ⟨sizeCalc .prg n, sizeCalc .chr n, exec_sizc_of_ne hp .prg n, sizeCalc_prg_toNat n,
      exec_sizc_of_ne hp .chr n, sizeCalc_chr_toNat n⟩
  · exact ⟨sizeCalc_prg_toNat d.prgBanks16k, sizeCalc_chr_toNat d.chrBanks8k⟩

/-! ### The table form of the CRC step -/

/-- Settles O19: closed values, each of at most eight passes of the loop. -/
theorem crcEngineHasTheKnownValues : Obligations.CrcEngineHasTheKnownValues := by
  unfold Obligations.CrcEngineHasTheKnownValues
  decide

theorem crcTable_eq_crcBits (i : Byte) : crcTable i = crcBits 8 (i.setWidth 32) := by
  simp [crcTable, crcStep]

theorem eq_high_xor_low_byte (x : Word) : x = (x >>> 8) <<< 8 ^^^ (x.setWidth 8).setWidth 32 := by
  ext k hk
  by_cases h : k < 8
  · simp [h, BitVec.getLsbD_eq_getElem hk]
  · simp [h, hk, Nat.add_sub_cancel' (Nat.le_of_not_lt h)]

/-- Over the high bits the eight passes only shift, and the low byte's part is the table entry. -/
theorem crcBits_eight (x : Word) : crcBits 8 x = x >>> 8 ^^^ crcTable (x.setWidth 8) := by
  have hhigh : crcBits 8 ((x >>> 8) <<< 8) = x >>> 8 := by
    rw [crcBits_of_low_zero 8 _ fun i hi => by simp [hi]]
    ext k hk
    simpa using BitVec.lt_of_getLsbD
  calc crcBits 8 x
      = crcBits 8 ((x >>> 8) <<< 8) ^^^ crcBits 8 ((x.setWidth 8).setWidth 32) := by
        rw [← crcBits_xor, ← eq_high_xor_low_byte]
    _ = x >>> 8 ^^^ crcTable (x.setWidth 8) := by rw [hhigh, crcTable_eq_crcBits]

theorem byte_shiftRight_eight (b : Byte) : (b.setWidth 32 : Word) >>> 8 = 0#32 := by
  ext k hk
  simp

/-- Settles O20: the byte changes the low byte only, so the high bits are the accumulator's. -/
theorem tableStepEqualsBitwiseStep : Obligations.TableStepEqualsBitwiseStep := by
  intro acc b
  rw [crcStep, crcBits_eight, BitVec.ushiftRight_xor_distrib, byte_shiftRight_eight, BitVec.xor_zero]

/-! ### The CRC views -/

/-- The final exclusive-or of a view undoes itself, so a view that is `Crc32` of some bytes stays so byte by byte. -/
theorem crcStep_extends_view {acc : Word} {taken : List Byte} (h : acc ^^^ crcOnes = crc32 taken) (b : Byte) :
    crcStep acc b ^^^ crcOnes = crc32 (taken ++ [b]) := by
  rw [crc32_append_singleton, ← h, BitVec.xor_assoc, BitVec.xor_self, BitVec.xor_zero]

/-- Settles O21: the byte goes to its own region's accumulator alone. -/
theorem regionPushExtendsTheChecksum : Obligations.RegionPushExtendsTheChecksum := by
  intro s d b taken heos hd
  refine ⟨fun hp hview => ?_, fun hp hview => ?_⟩
  · exact ⟨_, d.takePrg b, execPush_prg hp heos hd, withRegion_decoded .prg _ s, crcStep_extends_view hview b, rfl⟩
  · exact ⟨_, d.takeChr b, execPush_chr hp heos hd, withRegion_decoded .chr _ s, crcStep_extends_view hview b, rfl⟩

end Sys2Proof.Machine

/-!
SUPPORT. The dispatch of 42_host_commands.md R190 and the commands that take no stream byte: the step of a decoded word,
the ERROR gate, CLEAR and the reset input, RDREG, and EOS.
-/

namespace Sys2Proof.Machine

open Sys2Proof

variable {s t : State} {w : Word} {i : Instr} {rest : List HostAct} {r : Reg} {v : Word} {d : DecodedGroup}

/-! ### Decode, gate, perform -/

theorem step_of_decode_ok (hi : s.issue = .command w :: rest) (hd : decode w = .ok i) :
    step s = exec i { s with issue := rest } := by
  rw [step_command hi, execute, hd]

/-- Settles O8: the step decodes the word at the head of the list. -/
theorem stepRunsTheDecodedCommand : Obligations.StepRunsTheDecodedCommand :=
  fun _ _ _ _ hi _ hd => step_of_decode_ok hi hd

/-- Every command but RDREG and CLEAR stands behind the ERROR gate. -/
theorem exec_aborted (hp : s.phase = .error) (hrdreg : ∀ idx, i ≠ .rdreg idx) (hclear : i ≠ .clear) :
    exec i s = .next (respond .aborted 0 s) := by
  cases i with
  | push b => exact execPush_aborted hp
  | eos => rw [exec, execEos, unlessError_of_eq hp]
  | rdreg idx => exact absurd rfl (hrdreg idx)
  | getbit pos b => rw [exec, execGetbit, unlessError_of_eq hp]
  | mapc f6 f7 => rw [exec, execMapc, unlessError_of_eq hp]
  | sizc sel n => rw [exec, execSizc, unlessError_of_eq hp]
  | clear => exact absurd rfl hclear

/-- Settles O9: an illegal word raises, and a legal one is executed, which in phase ERROR the gate answers. -/
theorem dispatchDecodesThenGatesThenPerforms : Obligations.DispatchDecodesThenGatesThenPerforms := by
  intro s w rest hi
  refine ⟨fun e he => ?_, fun i hd hp hrdreg hclear => ?_, fun i hd _ => step_of_decode_ok hi hd⟩
  · exact ⟨_, step_of_decode_error hi he, raise_raised _ _ _⟩
  · rw [step_of_decode_ok hi hd]
    exact exec_aborted (s := { s with issue := rest }) hp hrdreg hclear

/-! ### CLEAR and the reset input -/

/-- Settles O13: both are `clearBlock`, which keeps only the host's list. -/
theorem clearGivesTheResetState : Obligations.ClearGivesTheResetState := by
  refine ⟨fun s => execClear_eq s, fun s rest hi => ?_⟩
  rw [step, hi]
  rfl

/-! ### RDREG -/

theorem exec_rdreg_of_some {idx : Byte} (hr : Reg.ofIndex idx = some r) :
    exec (.rdreg idx) s = .next (readReg r s) := by
  rw [exec, execRdreg, hr]

theorem exec_rdreg_of_none {idx : Byte} (hr : Reg.ofIndex idx = none) :
    exec (.rdreg idx) s = .next (raise .illegalCommand (encode (.rdreg idx)) s) := by
  rw [exec, execRdreg, hr]

theorem readReg_of_value (hmay : s.mayRead r = true) (hv : s.regValue r = some v) : readReg r s = respond .ok v s := by
  rw [readReg, hmay, hv]

theorem readReg_of_not_valid (hvalid : s.hdrValid = false) (hr : r.group = .decoded) :
    readReg r s = raise .notDecoded (r.index.setWidth 32) s := by
  have hmay : s.mayRead r = false := by simp [State.mayRead, hr, hvalid]
  simp [readReg, hmay]

theorem exec_rdreg_of_value (hmay : s.mayRead r = true) (hv : s.regValue r = some v) :
    exec (.rdreg r.index) s = .next (respond .ok v s) := by
  rw [exec_rdreg_of_some (ofIndex_index r), readReg_of_value hmay hv]

/-- A register with a value in the group reads as that value. -/
theorem regValue_of_value (hd : s.decoded = some d) (hv : d.value r = some v) : s.regValue r = some v := by
  cases r with
  | status | errInfo | hdrCnt => cases hv
  | _ => simpa [State.regValue, hd] using hv

/-- Settles O22: each index is the index of its register, which may be read and has its value. -/
theorem rdregAnswersTheRegister : Obligations.RdregAnswersTheRegister := by
  intro s
  refine ⟨⟨?_, ?_, ?_⟩, fun d hvalid hd => ?_⟩
  · exact exec_rdreg_of_value (r := .status) rfl rfl
  · exact exec_rdreg_of_value (r := .errInfo) rfl rfl
  · exact exec_rdreg_of_value (r := .hdrCnt) rfl rfl
  · have hread (r : Reg) {v : Word} (hv : d.value r = some v) : exec (.rdreg r.index) s = .next (respond .ok v s) :=
      exec_rdreg_of_value (by simp [State.mayRead, hvalid]) (regValue_of_value hd hv)
    exact ⟨hread .magic rfl, hread .prgBanks rfl, hread .chrBanks rfl, hread .flags6 rfl, hread .flags7 rfl,
      hread .ramBanks rfl, hread .flags9 rfl, hread .tailLo rfl, hread .tailHi rfl, hread .mapper rfl,
      hread .fields rfl, hread .prgSize rfl, hread .chrSize rfl, hread .prgCnt rfl, hread .chrCnt rfl,
      hread .prgCrc rfl, hread .chrCrc rfl⟩

/-- Settles O24: an index is mapped exactly in the three ranges, and a mapped read answers OK or NotDecoded. -/
theorem rdregOfUnmappedIndexIsIllegal : Obligations.RdregOfUnmappedIndexIsIllegal := by
  intro idx s
  refine ⟨fun hout => ?_, fun hin => ?_⟩
  · have hnone : Reg.ofIndex idx = none := by simpa using mt (ofIndex_isSome_iff idx).mp hout
    exact ⟨_, exec_rdreg_of_none hnone, raise_raised .illegalCommand (encode (.rdreg idx)) s⟩
  · obtain ⟨r, hr⟩ := Option.isSome_iff_exists.mp ((ofIndex_isSome_iff idx).mpr hin)
    rcases readReg_cases r s with ⟨v, -, -, hread⟩ | ⟨-, hread⟩
    · exact ⟨_, _, exec_rdreg_of_some hr, by rw [hread, respond_resp], by simp⟩
    · exact ⟨_, _, exec_rdreg_of_some hr, by rw [hread, raise_resp], by simp⟩

/-- The indices from 0x10 on are those of the decoded group (10_state.md R44). -/
theorem group_eq_decoded_of_index (h : 0x10 ≤ r.index.toNat) : r.group = .decoded := by
  cases r with
  | status | errInfo | hdrCnt => exact absurd h (by decide)
  | _ => rfl

/-- Settles O25: such an index is mapped to a register of the decoded group, which `HDR_VALID` guards. -/
theorem rdregBeforeDecodeRaisesNotDecoded : Obligations.RdregBeforeDecodeRaisesNotDecoded := by
  intro idx s hvalid hidx
  obtain ⟨r, hr⟩ := Option.isSome_iff_exists.mp ((ofIndex_isSome_iff idx).mpr (.inr hidx))
  obtain rfl := index_of_ofIndex hr
  have hgroup : r.group = .decoded := group_eq_decoded_of_index (by omega)
  refine ⟨_, exec_rdreg_of_some hr, ?_⟩
  rw [readReg_of_not_valid hvalid hgroup]
  exact raise_raised _ _ s

/-! ### EOS -/

theorem execEos_hdr (hp : s.phase = .hdr) :
    execEos s = .next (raise .truncatedInput (s.hdrCnt.setWidth 32) { s with eosSeen := true }) := by
  simp [execEos, unlessError, eosByPhase, hp]

/-- EOS after the header ends the stream in DONE. -/
theorem execEos_ended (hp : s.phase = .prg ∨ s.phase = .chr ∨ s.phase = .done) :
    execEos s = .next (respond .ok 0 { s with eosSeen := true, phase := .done }) := by
  rcases hp with hp | hp | hp <;> simp [execEos, unlessError, eosByPhase, hp, respond]

/-- Settles O27: the word by the two directions of the encoding, the effect phase by phase. -/
theorem eosEndsTheStreamByPhase : Obligations.EosEndsTheStreamByPhase := by
  have hword (w : Word) : decode w = .ok .eos ↔ w = 0x20000000 :=
    ⟨fun h => (encode_of_decode h).symm, by rintro rfl; exact decode_encode_eos⟩
  refine ⟨hword, fun s => ⟨fun hp => ?_, fun hp => ?_, fun hp => ?_, fun hp => ?_⟩⟩
  · exact ⟨_, execEos_hdr hp, raise_raised _ _ _⟩
  · exact execEos_ended (hp.imp_right .inl)
  · rw [exec, execEos_ended (.inr (.inr hp)), respond, ← hp]
  · exact exec_aborted hp (by simp) (by simp)

/-! ### The order of the phases -/

theorem rank_le_error (p : Phase) : p.rank ≤ Phase.error.rank := by cases p <;> decide

/-- `Advance()` only moves forward. -/
theorem rank_le_advance (p : Phase) (d : DecodedGroup) : p.rank ≤ (advance p d).rank := by
  cases p with
  | prg => rcases advance_prg_cases d with ⟨-, -, h⟩ | ⟨-, -, h⟩ | ⟨-, h⟩ <;> simp [h, Phase.rank]
  | chr => rcases advance_chr_cases d with ⟨-, h⟩ | ⟨-, h⟩ <;> simp [h, Phase.rank]
  | hdr | done | error => rfl

theorem rank_le_raise (e : ErrorCode) (info : Word) (u : State) : s.phase.rank ≤ (raise e info u).phase.rank := by
  rw [raise_phase]; exact rank_le_error _

theorem rank_le_execPush {b : Byte} (ht : execPush b s = .next t) : s.phase.rank ≤ t.phase.rank := by
  rcases execPush_cases ht with ⟨-, rfl⟩ | ⟨-, -, rfl⟩ | ⟨-, -, -, rfl⟩ | ⟨-, -, -, -, rfl⟩ | ⟨hp, -, -, -, rfl⟩ |
    ⟨d, hp, -, -, rfl⟩ | ⟨d, hp, -, -, rfl⟩ | ⟨-, -, rfl⟩
  · rfl
  · exact rank_le_raise _ _ _
  · rfl
  · exact rank_le_raise _ _ _
  · rw [hp]; exact Nat.zero_le _
  · rw [hp]; exact rank_le_advance .prg _
  · rw [hp]; exact rank_le_advance .chr _
  · rfl

theorem rank_le_execEos (ht : execEos s = .next t) : s.phase.rank ≤ t.phase.rank := by
  rcases execEos_cases ht with ⟨-, rfl⟩ | ⟨-, rfl⟩ | ⟨hp, rfl⟩
  · rfl
  · exact rank_le_raise _ _ _
  · have hdone : s.phase.rank ≤ Phase.done.rank := by rcases hp with hp | hp | hp <;> simp [hp, Phase.rank]
    exact hdone

/-- Every command but CLEAR. -/
theorem rank_le_exec (hclear : i ≠ .clear) (ht : exec i s = .next t) : s.phase.rank ≤ t.phase.rank := by
  by_cases hpush : ∃ b, i = .push b
  · obtain ⟨b, rfl⟩ := hpush
    exact rank_le_execPush ht
  by_cases heos : i = .eos
  · subst heos
    exact rank_le_execEos ht
  rcases exec_responds_or_raises (not_exists.mp hpush) heos hclear ht with ⟨st, v, rfl⟩ | ⟨e, info, rfl⟩
  · rfl
  · exact rank_le_raise e info s

/-- Settles O39: idling keeps the phase, an error comes last, and every command but CLEAR moves forward. -/
theorem phaseOnlyMovesForward : Obligations.PhaseOnlyMovesForward := by
  intro s t hend ht
  rcases step_cases ht with ⟨-, rfl⟩ | ⟨rest, hi, -⟩ | ⟨w, rest, e, -, -, rfl⟩ | ⟨w, rest, i, hi, hdec, hx⟩
  · rfl
  · simpa [HostAct.endsInvocation] using hend .assertReset (by simp [hi])
  · exact rank_le_raise _ _ _
  · exact rank_le_exec (s := { s with issue := rest })
      (ne_clear_of_not_endsInvocation (hend (.command w) (by simp [hi])) hdec) hx

end Sys2Proof.Machine

/-!
SUPPORT. PUSH phase by phase (42_host_commands.md R191 to R194), what the latch writes from the 16 header bytes
(40_header_decoder.md R121), and the host's report on it (42_host_commands.md R215).
-/

namespace Sys2Proof.Machine

open Sys2Proof

variable {s : State} {d : DecodedGroup} {b : Byte}

/-! ### Header bytes -/

/-- Settles O28: `storeHeaderByte` writes one element of the buffer. -/
theorem pushStoresAHeaderByte : Obligations.PushStoresAHeaderByte := by
  intro b s hp heos hc
  refine ⟨respond .ok 0 (storeHeaderByte b s), ?_, rfl, storeHeaderByte_hdrCnt_toNat (by omega) b, fun i hi => ?_⟩
  · exact (execPush_hdr hp heos).trans (pushHeader_early hc)
  · simp [Vector.getElem_setIfInBounds, eq_comm]

theorem storeHeaderByte_last (hc : s.hdrCnt = 15) (b : Byte) :
    storeHeaderByte b s = { s with hdrBuf := s.hdrBuf.set 15 b, hdrCnt := 16 } := by
  have hbuf : s.hdrBuf.setIfInBounds 15 b = s.hdrBuf.set 15 b := by
    ext k hk
    rw [Vector.getElem_setIfInBounds, Vector.getElem_set]
  simp [storeHeaderByte, hc, hbuf]

theorem execPush_last_bad (hp : s.phase = .hdr) (heos : s.eosSeen = false) (hc : s.hdrCnt = 15)
    (hm : magicOK (s.hdrBuf.set 15 b) = false) :
    execPush b s = .next (raise .invalidMagic (magicInfo (s.hdrBuf.set 15 b))
      { s with hdrBuf := s.hdrBuf.set 15 b, hdrCnt := 16 }) := by
  rw [execPush_hdr hp heos, pushHeader_last hc, storeHeaderByte_last hc, finishHeader_bad hm]

theorem latch_eq (dh : DecodedHeader) (s : State) :
    latch dh s = { s with phase := advance .prg (latchedGroup dh), hdrValid := true,
                          decoded := some (latchedGroup dh) } := by
  rw [latch, withRegion]

/-- The 16th byte of a header with the right magic, by the decoded header and the phase `Advance()` leaves. -/
theorem execPush_last_good {dh : DecodedHeader} {p : Phase} (hp : s.phase = .hdr) (heos : s.eosSeen = false)
    (hc : s.hdrCnt = 15) (hm : magicOK (s.hdrBuf.set 15 b) = true) (hdh : headerFields (s.hdrBuf.set 15 b) = dh)
    (hadv : advance .prg (latchedGroup dh) = p) :
    execPush b s = .next { s with phase := p, hdrValid := true, hdrCnt := 16, hdrBuf := s.hdrBuf.set 15 b,
                                  decoded := some (latchedGroup dh), resp := some ⟨.ok, 0⟩ } := by
  rw [execPush_hdr hp heos, pushHeader_last hc, storeHeaderByte_last hc, finishHeader_good hm, latch_eq, respond, hdh,
    hadv]

theorem magicOK_iff (h : Header) :
    magicOK h = true ↔ h[0] = 0x4E ∧ h[1] = 0x45 ∧ h[2] = 0x53 ∧ h[3] = 0x1A := by
  simp [magicOK, and_assoc]

/-- The 16th byte is none of the magic's four. -/
theorem magicOK_set_last (h : Header) (b : Byte) : magicOK (h.set 15 b) = magicOK h := by
  simp [magicOK]

theorem magicInfo_set_last (h : Header) (b : Byte) : magicInfo (h.set 15 b) = magicInfo h := by
  simp [magicInfo]

/-- The 16th byte is the last of the reserved tail. -/
theorem headerFields_set_last (h : Header) (b : Byte) : headerFields (h.set 15 b)
    = { headerFields h with reservedTail := #v[h[10], h[11], h[12], h[13], h[14], b] } := by
  simp [headerFields]

/-! ### Packed bytes -/

theorem packLe_two (b₀ b₁ : Byte) : packLe [b₀, b₁] = (b₁ ++ b₀).setWidth 32 := by
  refine BitVec.eq_of_getLsbD_eq fun k hk => ?_
  rw [BitVec.getLsbD_setWidth, BitVec.getLsbD_append]
  interval_cases k <;> simp [packLe]

theorem packLe_four (b₀ b₁ b₂ b₃ : Byte) : packLe [b₀, b₁, b₂, b₃] = b₃ ++ b₂ ++ b₁ ++ b₀ := by
  refine BitVec.eq_of_getLsbD_eq fun k hk => ?_
  rw [BitVec.getLsbD_append, BitVec.getLsbD_append, BitVec.getLsbD_append]
  interval_cases k <;> simp [packLe]

/-- Settles O29: the four compared bytes are not the 16th, and `pack_le` puts the first lowest. -/
theorem sixteenthByteWithBadMagicRaises : Obligations.SixteenthByteWithBadMagicRaises := by
  intro b s hp heos hc hbad
  have hm : magicOK (s.hdrBuf.set 15 b) = false := by
    rw [magicOK_set_last]
    simpa using mt (magicOK_iff s.hdrBuf).mp hbad
  refine ⟨_, execPush_last_bad hp heos hc hm, ?_⟩
  rw [magicInfo_set_last, magicInfo, packLe_four]
  exact raise_raised _ _ _

/-! ### What the latch writes -/

theorem latchedGroup_magic {h : Header} (hm : magicOK h = true) :
    (latchedGroup (headerFields h)).magic = 0x1A53454E := by
  obtain ⟨h0, h1, h2, h3⟩ := (magicOK_iff h).mp hm
  have hpack : (latchedGroup (headerFields h)).magic = packLe [h[0], h[1], h[2], h[3]] := rfl
  rw [hpack, h0, h1, h2, h3]
  decide

theorem latchedGroup_tailLo (h : Header) :
    (latchedGroup (headerFields h)).tailLo = h[13] ++ h[12] ++ h[11] ++ h[10] :=
  packLe_four h[10] h[11] h[12] h[13]

theorem latchedGroup_tailHi (h : Header) : (latchedGroup (headerFields h)).tailHi = (h[15] ++ h[14]).setWidth 32 :=
  packLe_two h[14] h[15]

theorem sizeCalc_eq_zero_iff (sel : Region) (n : Byte) : 0 = sizeCalc sel n ↔ n = 0 := by
  cases sel <;> simp [BitVec.toNat_eq, sizeCalc_prg_toNat, sizeCalc_chr_toNat, eq_comm]

/-- After the latch the phase is past every empty region (41_bank_extractor.md R166). -/
theorem advance_latchedGroup (dh : DecodedHeader) : advance .prg (latchedGroup dh)
    = if dh.prgBanks16k ≠ 0 then .prg else if dh.chrBanks8k ≠ 0 then .chr else .done := by
  have hprg : (0 : Word) = sizeCalc .prg dh.prgBanks16k ↔ dh.prgBanks16k = 0 := sizeCalc_eq_zero_iff .prg _
  have hchr : (0 : Word) = sizeCalc .chr dh.chrBanks8k ↔ dh.chrBanks8k = 0 := sizeCalc_eq_zero_iff .chr _
  rw [advance_prg]
  simp only [latchedGroup, hprg, hchr, ne_eq, ite_not]

/-- Settles O30: the latch reads the buffer as it was, with the 16th byte in the reserved tail. -/
theorem sixteenthByteWithGoodMagicLatches : Obligations.SixteenthByteWithGoodMagicLatches := by
  intro b s hp heos hc hmagic
  have hm : magicOK s.hdrBuf = true := (magicOK_iff s.hdrBuf).mpr hmagic
  have hpush := execPush_last_good (b := b) hp heos hc (by rwa [magicOK_set_last])
    (headerFields_set_last s.hdrBuf b) (advance_latchedGroup _)
  exact ⟨_, _, hpush, rfl, rfl, latchedGroup_magic hm, rfl, rfl, rfl, rfl, rfl, rfl,
    packLe_four s.hdrBuf[10] s.hdrBuf[11] s.hdrBuf[12] s.hdrBuf[13], packLe_two s.hdrBuf[14] b, rfl, rfl,
    sizeCalc_prg_toNat s.hdrBuf[4], sizeCalc_chr_toNat s.hdrBuf[5], rfl, rfl, rfl, rfl⟩

/-! ### Region bytes, and bytes after them -/

/-- Settles O31: the region's accumulator and counter, and `Advance()` from its phase. -/
theorem pushTakesARegionByte : Obligations.PushTakesARegionByte := by
  intro b s d heos hd
  refine ⟨fun hp => ?_, fun hp => ?_⟩
  · rw [exec, execPush_prg hp heos hd, withRegion, advance_prg]; rfl
  · rw [exec, execPush_chr hp heos hd, withRegion, advance_chr]; rfl

/-- Settles O32: the byte is answered and nothing is written. -/
theorem pushInDoneDiscardsTheByte : Obligations.PushInDoneDiscardsTheByte := fun _ _ hp heos => execPush_done hp heos

/-- Settles O33: PUSH raises with its own word. -/
theorem pushAfterEosIsIllegal : Obligations.PushAfterEosIsIllegal :=
  fun _ _ hp heos => ⟨_, execPush_afterEos hp heos, raise_raised _ _ _⟩

/-! ### The report -/

/-- All lines of the report but the last two come from the decoded fields. -/
theorem report_eq_headerPart_report (d : DecodedGroup) :
    d.report = { d.headerPart.report with prgCrc := d.prgCrc, chrCrc := d.chrCrc } := rfl

theorem mapperName_of_not_named {id : Byte} (h : mapperNamed id = false) : mapperName id = none := by
  have hid : ¬ id.toNat ≤ 10 := mt (mapperNamed_iff id).mpr (by simp [h])
  rw [mapperName_of_ge_two (by omega), h]
  rfl

/-- The name shown is the table's: an unnamed id has none there either. -/
theorem shownName_eq (hid : d.mapperIsNamed = mapperNamed d.mapperId) : d.shownName = mapperName d.mapperId := by
  rw [DecodedGroup.shownName, hid]
  cases hn : mapperNamed d.mapperId with
  | false => exact (mapperName_of_not_named hn).symm
  | true => rfl

theorem toNat_byte_word (b : Byte) : (b.setWidth 32 : Word).toNat = b.toNat := BitVec.toNat_setWidth_of_le (by decide)

/-- Settles O48: the invariant makes the decoded fields those of the latch, so each line is a field of the header. -/
theorem reportShowsTheHeaderReceived : Obligations.ReportShowsTheHeaderReceived := by
  intro s hs hp
  obtain ⟨d, hd, hg⟩ := hs.exists_group (by simp [hp]) (by simp [hp])
  have hreport : s.report = some d.report := by simp [State.report, hp, hd]
  refine ⟨d.report, hreport, ?_⟩
  rw [report_eq_headerPart_report, hg.latched]
  have hm := hg.magic
  generalize s.hdrBuf = h at hm ⊢
  obtain ⟨hmirror, hbattery, htrainer, hfour, hvs, hvideo, -, hres7, -, hres9, -⟩ :=
    fieldsWordHoldsEveryFlag h[6] h[7] h[9]
  have hid : (latchedGroup (headerFields h)).mapperId = composeMapper h[6] h[7] := mapperWord_id h[6] h[7]
  have hname : (latchedGroup (headerFields h)).mapperIsNamed
      = mapperNamed (latchedGroup (headerFields h)).mapperId := by
    rw [hid]; exact mapperWord_named h[6] h[7]
  refine ⟨latchedGroup_magic hm, rfl, congrArg (· * 16) (toNat_byte_word h[4]), rfl,
    congrArg (· * 8) (toNat_byte_word h[5]), hid, shownName_eq hname, ?_, hbattery, htrainer, hfour, hvs, hres7, hres9,
    latchedGroup_tailLo h, latchedGroup_tailHi h, rfl, ?_, d, hd, rfl, rfl⟩
  · rw [← hmirror]; rfl
  · rw [← hvideo]; rfl

end Sys2Proof.Machine

/-!
SUPPORT. From the host's script to the commands (42_host_commands.md R197): the steps of a script are its PUSHes, its
EOS, and commands that change no register, so a run of the script is the run of the PUSHes and the EOS alone. What these
do is stated over the registers, since neither the host's list nor the response port takes part in it.
-/

namespace Sys2Proof.Machine

open Sys2Proof

variable {s t : State} {a : HostAct} {b : Byte} {bs : List Byte} {acts rest : List HostAct} {n : Nat}
  {r : Response} {rs rs' : List (Byte × Response)} {es : List Response} {P Q R E : State → Prop}

/-! ### Commands that change nothing -/

/-- A command that a script interleaves only drives the response port, in every phase. -/
theorem exec_of_changesNothing {w : Word} {i : Instr} (h : (HostAct.command w).changesNothing = true)
    (hd : decode w = .ok i) (s : State) : ∃ st v, exec i s = .next (respond st v s) := by
  simp only [HostAct.changesNothing, hd] at h
  cases i with
  | push | eos | clear => cases h
  | rdreg idx =>
    obtain ⟨r, hr, hgroup⟩ := (Option.any_eq_true _ _).mp h
    rcases readReg_cases r s with ⟨v, -, -, hread⟩ | ⟨hdec, -⟩
    · exact ⟨_, _, by rw [exec_rdreg_of_some hr, hread]⟩
    · rw [hdec] at hgroup; cases hgroup
  | getbit pos b =>
    obtain ⟨h0, h7⟩ := of_decide_eq_true h
    by_cases hp : s.phase = .error
    · exact ⟨_, _, exec_aborted hp (by simp) (by simp)⟩
    · exact ⟨_, _, exec_getbit_inRange hp h0 h7 b⟩
  | mapc f6 f7 =>
    by_cases hp : s.phase = .error
    · exact ⟨_, _, exec_aborted hp (by simp) (by simp)⟩
    · exact ⟨_, _, exec_mapc_of_ne hp f6 f7⟩
  | sizc sel n =>
    by_cases hp : s.phase = .error
    · exact ⟨_, _, exec_aborted hp (by simp) (by simp)⟩
    · exact ⟨_, _, exec_sizc_of_ne hp sel n⟩

theorem changesNothing_decodes (h : a.changesNothing = true) : ∃ w i, a = .command w ∧ decode w = .ok i := by
  cases a with
  | assertReset => cases h
  | command w =>
    cases hd : decode w with
    | ok i => exact ⟨w, i, rfl, hd⟩
    | error e => simp [HostAct.changesNothing, hd] at h

theorem step_of_changesNothing (h : a.changesNothing = true) (hi : s.issue = a :: rest) :
    ∃ t, step s = .next t ∧ t.issue = rest ∧ t.regs = s.regs := by
  obtain ⟨w, i, rfl, hd⟩ := changesNothing_decodes h
  obtain ⟨st, v, hx⟩ := exec_of_changesNothing h hd { s with issue := rest }
  exact ⟨_, (step_of_decode_ok hi hd).trans hx, rfl, rfl⟩

theorem pushedByte_of_changesNothing (h : a.changesNothing = true) : a.pushedByte = none := by
  obtain ⟨w, i, rfl, hd⟩ := changesNothing_decodes h
  simp only [HostAct.changesNothing, hd] at h
  simp only [HostAct.pushedByte, hd]
  cases i with
  | push b => cases h
  | _ => rfl

theorem ne_eosAct_of_changesNothing (h : a.changesNothing = true) : a ≠ eosAct := by
  rintro rfl
  simp [HostAct.changesNothing, eosAct] at h

/-! ### The PUSHes and the EOS of a script -/

@[simp] theorem pushedByte_pushAct (b : Byte) : (pushAct b).pushedByte = some b := by
  simp [HostAct.pushedByte, pushAct]

@[simp] theorem pushedByte_eosAct : eosAct.pushedByte = none := by simp [HostAct.pushedByte, eosAct]

theorem pushAct_ne_eosAct (b : Byte) : pushAct b ≠ eosAct := by
  intro h
  simpa using congrArg HostAct.pushedByte h

/-- From registers that `P` describes, the PUSH of `b` is answered `r` and leaves registers that `Q` describes. -/
def Takes (P : State → Prop) (b : Byte) (r : Response) (Q : State → Prop) : Prop :=
  ∀ s, P s.regs → ∃ t, execPush b s = .next t ∧ t.resp = some r ∧ Q t.regs

/-- From registers that `P` describes, EOS is answered `r` and leaves registers that `Q` describes. -/
def Ends (P : State → Prop) (r : Response) (Q : State → Prop) : Prop :=
  ∀ s, P s.regs → ∃ t, execEos s = .next t ∧ t.resp = some r ∧ Q t.regs

theorem Takes.step (h : Takes P b r Q) (hi : s.issue = pushAct b :: rest) (hs : P s.regs) :
    ∃ t, step s = .next t ∧ t.issue = rest ∧ t.resp = some r ∧ Q t.regs := by
  obtain ⟨t, ht, hr, hq⟩ := h { s with issue := rest } hs
  have hstep : Machine.step s = .next t := (step_of_decode_ok hi (decode_encode_push b)).trans ht
  exact ⟨t, hstep, (answered_step hi hstep).1, hr, hq⟩

theorem Ends.step (h : Ends P r Q) (hi : s.issue = eosAct :: rest) (hs : P s.regs) :
    ∃ t, step s = .next t ∧ t.issue = rest ∧ t.resp = some r ∧ Q t.regs := by
  obtain ⟨t, ht, hr, hq⟩ := h { s with issue := rest } hs
  have hstep : Machine.step s = .next t := (step_of_decode_ok hi decode_encode_eos).trans ht
  exact ⟨t, hstep, (answered_step hi hstep).1, hr, hq⟩

/-- PUSHes in a row: from `P` to `Q`, each byte with its answer. -/
inductive Feeds : (State → Prop) → List (Byte × Response) → (State → Prop) → Prop where
  | nil {P : State → Prop} : Feeds P [] P
  | cons {P R Q : State → Prop} {b : Byte} {r : Response} {rs : List (Byte × Response)} :
      Takes P b r R → Feeds R rs Q → Feeds P ((b, r) :: rs) Q

theorem Feeds.single (h : Takes P b r Q) : Feeds P [(b, r)] Q := .cons h .nil

theorem Feeds.append (h : Feeds P rs R) (h' : Feeds R rs' Q) : Feeds P (rs ++ rs') Q := by
  induction h with
  | nil => exact h'
  | cons ht _ ih => exact .cons ht (ih h')

/-- Bytes that all get one answer, when `I` says what the registers are after the bytes taken so far. -/
theorem feeds_map_after {I : List Byte → State → Prop} {r : Response} (bs pre : List Byte)
    (h : ∀ taken b, taken.length < pre.length + bs.length → Takes (I taken) b r (I (taken ++ [b]))) :
    Feeds (I pre) (bs.map fun b => (b, r)) (I (pre ++ bs)) := by
  induction bs generalizing pre with
  | nil => rw [List.append_nil]; exact .nil
  | cons b bs ih =>
    have hrest := ih (pre ++ [b]) fun taken c hlt => h taken c (by simp at hlt ⊢; omega)
    rw [List.append_assoc] at hrest
    exact .cons (h pre b (by simp)) hrest

theorem feeds_map (I : List Byte → State → Prop) {r : Response} (bs : List Byte)
    (h : ∀ taken b, taken.length < bs.length → Takes (I taken) b r (I (taken ++ [b]))) :
    Feeds (I []) (bs.map fun b => (b, r)) (I bs) :=
  feeds_map_after bs [] (by simpa using h)

/-! ### Runs with their responses -/

/-- `n` steps from `s` end in registers that `E` describes, with these responses to the PUSHes and to EOS. -/
def RunsTo (n : Nat) (s : State) (rs : List (Byte × Response)) (es : List Response) (E : State → Prop) : Prop :=
  ∃ t, Sys2Proof.core.run n s = .next t ∧ E t.regs ∧ pushResponses (transcript n s) = rs
    ∧ eosResponses (transcript n s) = es

theorem run_succ (ht : step s = .next t) (n : Nat) : Sys2Proof.core.run (n + 1) s = Sys2Proof.core.run n t := by
  have hcore : Sys2Proof.core.step s = .next t := ht
  simp only [Host.Core.run, hcore]

theorem transcript_succ (hi : s.issue = a :: rest) (ht : step s = .next t) (n : Nat) :
    transcript (n + 1) s = (a, t.resp) :: transcript n t := by
  rw [transcript, hi, ht]

theorem RunsTo.after_push (hi : s.issue = pushAct b :: rest) (ht : step s = .next t) (hr : t.resp = some r)
    (h : RunsTo n t rs es E) : RunsTo (n + 1) s ((b, r) :: rs) es E := by
  obtain ⟨u, hrun, hu, hpush, heos⟩ := h
  refine ⟨u, (run_succ ht n).trans hrun, hu, ?_, ?_⟩
  · simp [transcript_succ hi ht, pushResponses, hr, hpush]
  · simp [transcript_succ hi ht, eosResponses, pushAct_ne_eosAct, heos]

theorem RunsTo.after_eos (hi : s.issue = eosAct :: rest) (ht : step s = .next t) (hr : t.resp = some r)
    (h : RunsTo n t rs es E) : RunsTo (n + 1) s rs (r :: es) E := by
  obtain ⟨u, hrun, hu, hpush, heos⟩ := h
  refine ⟨u, (run_succ ht n).trans hrun, hu, ?_, ?_⟩
  · simp [transcript_succ hi ht, pushResponses, hpush]
  · simp [transcript_succ hi ht, eosResponses, hr, heos]

theorem RunsTo.after_quiet (ha : a.changesNothing = true) (hi : s.issue = a :: rest) (ht : step s = .next t)
    (h : RunsTo n t rs es E) : RunsTo (n + 1) s rs es E := by
  obtain ⟨u, hrun, hu, hpush, heos⟩ := h
  refine ⟨u, (run_succ ht n).trans hrun, hu, ?_, ?_⟩
  · simp [transcript_succ hi ht, pushResponses, pushedByte_of_changesNothing ha, hpush]
  · simp [transcript_succ hi ht, eosResponses, ne_eosAct_of_changesNothing ha, heos]

theorem runsTo_of_changesNothing (ha : ∀ a ∈ acts, a.changesNothing = true) (hi : s.issue = acts) (hs : E s.regs) :
    RunsTo acts.length s [] [] E := by
  induction acts generalizing s with
  | nil => exact ⟨s, rfl, hs, rfl, rfl⟩
  | cons a acts ih =>
    obtain ⟨hhead, htail⟩ := List.forall_mem_cons.mp ha
    obtain ⟨t, ht, hti, hregs⟩ := step_of_changesNothing hhead hi
    exact (ih htail hti (by rwa [hregs])).after_quiet hhead hi ht

/-- A run of a script does what its PUSHes and its EOS do. -/
theorem StreamScript.runsTo (h : StreamScript bs acts) (hf : Feeds P rs Q) (hbs : rs.map Prod.fst = bs)
    (he : Ends Q r E) (hi : s.issue = acts) (hs : P s.regs) : RunsTo acts.length s rs [r] E := by
  induction h generalizing P rs s with
  | eos hquiet =>
    obtain rfl : rs = [] := by simpa using hbs
    cases hf
    obtain ⟨t, ht, hti, hr, hq⟩ := he.step hi hs
    exact (runsTo_of_changesNothing hquiet hti hq).after_eos hi ht hr
  | push b _ ih =>
    cases hf with
    | nil => cases hbs
    | cons htake hrest =>
      obtain ⟨rfl, htail⟩ := List.cons.inj hbs
      obtain ⟨t, ht, hti, hr, hq⟩ := htake.step hi hs
      exact (ih hrest htail hti hq).after_push hi ht hr
  | quiet hquiet _ ih =>
    obtain ⟨t, ht, hti, hregs⟩ := step_of_changesNothing hquiet hi
    exact (ih hf hbs hti (by rwa [hregs])).after_quiet hquiet hi ht

end Sys2Proof.Machine

/-!
SUPPORT. The three cases of the stream law (42_host_commands.md R197): what the registers are after each byte of a
stream, while the header is short, after a header with a wrong magic, and while and after the regions are taken.
-/

namespace Sys2Proof.Machine

open Sys2Proof

variable {s t : State} {b : Byte} {bs taken p c : List Byte} {h : Header} {d : DecodedGroup} {Q : State → Prop}

/-! ### The header of a stream -/

@[simp] theorem headerOf_getElem (bs : List Byte) (i : Nat) (hi : i < 16) : (headerOf bs)[i] = bs.getD i 0 := by
  simp [headerOf]

/-- The bytes after the 16th are no header bytes. -/
theorem headerOf_take (bs : List Byte) : headerOf (bs.take 16) = headerOf bs := by
  ext i hi
  have hlt : i < 16 := hi
  simp [hlt]

theorem take_sixteen (hlen : 16 ≤ bs.length) : bs.take 16 = bs.take 15 ++ [bs[15]] :=
  (List.take_append_getElem (by omega)).symm

theorem take_four (hlen : 4 ≤ bs.length) :
    bs.take 4 = [(headerOf bs)[0], (headerOf bs)[1], (headerOf bs)[2], (headerOf bs)[3]] := by
  match bs with
  | _ :: _ :: _ :: _ :: _ => simp

theorem magicOK_headerOf (hlen : 4 ≤ bs.length) :
    magicOK (headerOf bs) = true ↔ bs.take 4 = [0x4E, 0x45, 0x53, 0x1A] := by
  rw [magicOK_iff, take_four hlen]
  simp

theorem magicInfo_headerOf (hlen : 4 ≤ bs.length) : magicInfo (headerOf bs) = packLe (bs.take 4) := by
  rw [magicInfo, take_four hlen]

/-! ### The header is short -/

/-- The reset values, but for the header bytes taken so far and their count. -/
structure HeaderTaken (taken : List Byte) (s : State) : Prop where
  phase : s.phase = .hdr
  valid : s.hdrValid = false
  eos : s.eosSeen = false
  noErr : s.err = none
  noInfo : s.errInfo = 0
  noValue : s.decoded = none
  cnt : s.hdrCnt.toNat = taken.length
  buf : ∀ (i : Nat) (hi : i < 16), i < taken.length → s.hdrBuf[i] = taken.getD i 0

theorem AtReset.headerTaken (h : AtReset s) : HeaderTaken [] s.regs :=
  ⟨h.phase, h.valid, h.eos, h.err, h.info, h.noValue, by simp [h.cnt], fun _ _ hlt => absurd hlt (Nat.not_lt_zero _)⟩

theorem takes_header (hlen : taken.length < 15) (b : Byte) :
    Takes (HeaderTaken taken) b ⟨.ok, 0⟩ (HeaderTaken (taken ++ [b])) := by
  intro s hs
  have hcnt : s.hdrCnt.toNat = taken.length := hs.cnt
  have hpush := (execPush_hdr (s := s) (b := b) hs.phase hs.eos).trans (pushHeader_early (by omega))
  refine ⟨_, hpush, rfl, hs.phase, hs.valid, hs.eos, hs.noErr, hs.noInfo, hs.noValue, ?_, fun i hi hlt => ?_⟩
  · rw [List.length_append, ← hcnt]
    exact storeHeaderByte_hdrCnt_toNat (by omega) b
  · have hget : (storeHeaderByte b s).hdrBuf[i] = if taken.length = i then b else s.hdrBuf[i] := by
      simp [Vector.getElem_setIfInBounds, hcnt]
    refine hget.trans ?_
    rcases Nat.lt_or_eq_of_le (Nat.le_of_lt_succ (by simpa using hlt)) with hold | rfl
    · rw [if_neg (by omega), List.getD_append _ _ _ _ hold]
      exact hs.buf i hi hold
    · simp

theorem feeds_header (hlen : bs.length ≤ 15) :
    Feeds (HeaderTaken []) (bs.map fun b => (b, ⟨.ok, 0⟩)) (HeaderTaken bs) :=
  feeds_map HeaderTaken bs fun _ b hlt => takes_header (by omega) b

/-- The 16th byte completes the header of the stream. -/
theorem HeaderTaken.set_last (hs : HeaderTaken taken s) (hlen : taken.length = 15) (b : Byte) :
    s.hdrBuf.set 15 b = headerOf (taken ++ [b]) := by
  refine Vector.ext fun i hi => ?_
  rw [Vector.getElem_set]
  split
  · next heq => simp [← heq, ← hlen]
  · next hne =>
    have hold : i < taken.length := by have : i < 16 := hi; omega
    rw [headerOf_getElem _ _ hi, List.getD_append _ _ _ _ hold]
    exact hs.buf i hi hold

theorem HeaderTaken.hdrCnt_eq (hs : HeaderTaken taken s) (hlen : taken.length = 15) : s.hdrCnt = 15 :=
  BitVec.eq_of_toNat_eq (hs.cnt.trans hlen)

/-! ### Case 1: the stream ends in the header -/

/-- The registers after EOS in the header: TruncatedInput with the number of bytes taken. -/
structure Truncated (taken : List Byte) (s : State) : Prop where
  phase : s.phase = .error
  err : s.err = some .truncatedInput
  info : s.errInfo = BitVec.ofNat 32 taken.length
  cnt : s.hdrCnt.toNat = taken.length
  valid : s.hdrValid = false
  noValue : s.decoded = none
  eos : s.eosSeen = true

theorem ends_header : Ends (HeaderTaken taken) ⟨.error .truncatedInput, 0⟩ (Truncated taken) := by
  intro s hs
  have herr : s.err = none := hs.noErr
  refine ⟨_, execEos_hdr hs.phase, raise_resp _ _ _, ?_⟩
  have hinfo : s.hdrCnt.setWidth 32 = BitVec.ofNat 32 taken.length := by
    rw [← hs.cnt]
    exact BitVec.eq_of_toNat_eq (by simp)
  exact ⟨by simp, by simp [herr], by simp [herr, hinfo], by simpa using hs.cnt, by simpa using hs.valid,
    by simpa using hs.noValue, by simp⟩

/-- Settles O45: the bytes are header bytes, and EOS finds the header short. -/
theorem shortStreamEndsInTruncatedInput : Obligations.ShortStreamEndsInTruncatedInput := by
  intro bs s hscript hreset hlen
  have hfeeds := feeds_header (bs := bs) (by omega)
  obtain ⟨t, hrun, ht, hpush, heos⟩ :=
    hscript.runsTo hfeeds (by simp [Function.comp_def]) ends_header rfl hreset.headerTaken
  exact ⟨t, hrun, ht.phase, ht.err, ht.info, ht.cnt, ht.valid, ht.noValue, ht.eos, hpush, heos⟩

/-! ### Case 2: the magic is wrong -/

/-- The registers after the 16th byte of a header with a wrong magic. -/
structure MagicRefused (h : Header) (s : State) : Prop where
  phase : s.phase = .error
  err : s.err = some .invalidMagic
  info : s.errInfo = magicInfo h
  cnt : s.hdrCnt = 16
  valid : s.hdrValid = false
  noValue : s.decoded = none
  eos : s.eosSeen = false

theorem takes_last_bad (hlen : taken.length = 15) (hm : magicOK (headerOf (taken ++ [b])) = false) :
    Takes (HeaderTaken taken) b ⟨.error .invalidMagic, 0⟩ (MagicRefused (headerOf (taken ++ [b]))) := by
  intro s hs
  have herr : s.err = none := hs.noErr
  have hset : s.hdrBuf.set 15 b = headerOf (taken ++ [b]) := hs.set_last hlen b
  refine ⟨_, execPush_last_bad hs.phase hs.eos (hs.hdrCnt_eq hlen) (by rw [hset]; exact hm), raise_resp _ _ _, ?_⟩
  exact ⟨by simp, by simp [herr], by simp [herr, hset], by simp, by simpa using hs.valid, by simpa using hs.noValue,
    by simpa using hs.eos⟩

/-- In phase ERROR every byte is refused and nothing changes. -/
theorem takes_aborted (hQ : ∀ s, Q s → s.phase = .error) (b : Byte) : Takes Q b ⟨.aborted, 0⟩ Q :=
  fun s hs => ⟨_, execPush_aborted (hQ s.regs hs), rfl, hs⟩

theorem ends_aborted (hQ : ∀ s, Q s → s.phase = .error) : Ends Q ⟨.aborted, 0⟩ Q :=
  fun s hs => ⟨_, exec_aborted (i := .eos) (hQ s.regs hs) (by simp) (by simp), rfl, hs⟩

theorem feeds_bad (hlen : 16 ≤ bs.length) (hm : magicOK (headerOf bs) = false) :
    Feeds (HeaderTaken []) ((bs.take 15).map (fun b => (b, ⟨.ok, 0⟩))
        ++ ((bs.drop 15).take 1).map (fun b => (b, ⟨.error .invalidMagic, 0⟩))
        ++ (bs.drop 16).map (fun b => (b, ⟨.aborted, 0⟩)))
      (MagicRefused (headerOf bs)) := by
  have hlast := takes_last_bad (taken := bs.take 15) (b := bs[15]) (by simp; omega)
    (by rwa [← take_sixteen hlen, headerOf_take])
  rw [← take_sixteen hlen, headerOf_take] at hlast
  have hone : (bs.drop 15).take 1 = [bs[15]] := by rw [List.drop_eq_getElem_cons (by omega)]; rfl
  rw [hone]
  refine ((feeds_header (by simp)).append (.single hlast)).append ?_
  exact feeds_map (fun _ => MagicRefused (headerOf bs)) _ fun _ b _ => takes_aborted (fun _ hs => hs.phase) b

/-- Settles O46: the 16th byte raises, and from then on the gate answers. -/
theorem streamWithBadMagicEndsInInvalidMagic : Obligations.StreamWithBadMagicEndsInInvalidMagic := by
  intro bs s hscript hreset hlen hbad
  have hm : magicOK (headerOf bs) = false := by simpa using mt (magicOK_headerOf (by omega)).mp hbad
  have hbs : bs.take 15 ++ ((bs.drop 15).take 1 ++ bs.drop 16) = bs := by
    have hone : bs.drop 16 = (bs.drop 15).drop 1 := by rw [List.drop_drop]
    rw [hone, List.take_append_drop, List.take_append_drop]
  obtain ⟨t, hrun, ht, hpush, heos⟩ := hscript.runsTo (feeds_bad hlen hm) (by simpa [Function.comp_def] using hbs)
    (ends_aborted fun _ hs => hs.phase) rfl hreset.headerTaken
  exact ⟨t, hrun, ht.phase, ht.err, ht.info.trans (magicInfo_headerOf (by omega)), ht.cnt, ht.valid, ht.noValue, ht.eos,
    hpush, heos⟩

/-! ### Case 3: the regions are taken -/

/-- The group of the header `h` after the PRG bytes `p` and the CHR bytes `c`. -/
def groupAfter (h : Header) (p c : List Byte) : DecodedGroup :=
  { latchedGroup (headerFields h) with
    prgCnt := BitVec.ofNat 32 p.length, chrCnt := BitVec.ofNat 32 c.length,
    prgAcc := p.foldl crcStep crcOnes, chrAcc := c.foldl crcStep crcOnes }

theorem groupAfter_nil (h : Header) : groupAfter h [] [] = latchedGroup (headerFields h) := by
  simp [groupAfter, latchedGroup]

theorem groupAfter_takePrg (h : Header) (p c : List Byte) (b : Byte) :
    (groupAfter h p c).takePrg b = groupAfter h (p ++ [b]) c := by
  simp [groupAfter, DecodedGroup.takePrg, BitVec.ofNat_add]

theorem groupAfter_takeChr (h : Header) (p c : List Byte) (b : Byte) :
    (groupAfter h p c).takeChr b = groupAfter h p (c ++ [b]) := by
  simp [groupAfter, DecodedGroup.takeChr, BitVec.ofNat_add]

theorem toNat_ofNat_of_le {n : Nat} {x : Word} (hle : n ≤ x.toNat) : (BitVec.ofNat 32 n).toNat = n :=
  (BitVec.toNat_ofNat n 32).trans (Nat.mod_eq_of_lt (Nat.lt_of_le_of_lt hle x.isLt))

/-- The PRG bytes that a header announces. -/
def prgLen (h : Header) : Nat := (sizeCalc .prg h[4]).toNat

/-- The CHR bytes that a header announces. -/
def chrLen (h : Header) : Nat := (sizeCalc .chr h[5]).toNat

theorem groupAfter_headerPart (h : Header) (p c : List Byte) :
    (groupAfter h p c).headerPart = (latchedGroup (headerFields h)).headerPart := by
  simp [groupAfter, DecodedGroup.headerPart]

theorem groupAfter_prgSize (h : Header) (p c : List Byte) : (groupAfter h p c).prgSize.toNat = prgLen h := rfl

theorem groupAfter_chrSize (h : Header) (p c : List Byte) : (groupAfter h p c).chrSize.toNat = chrLen h := rfl

theorem groupAfter_prgCnt (hp : p.length ≤ prgLen h) : (groupAfter h p c).prgCnt.toNat = p.length :=
  toNat_ofNat_of_le hp

theorem groupAfter_chrCnt (hc : c.length ≤ chrLen h) : (groupAfter h p c).chrCnt.toNat = c.length :=
  toNat_ofNat_of_le hc

theorem groupAfter_prg_complete (hp : p.length ≤ prgLen h) :
    (groupAfter h p c).prgCnt = (groupAfter h p c).prgSize ↔ p.length = prgLen h := by
  rw [← BitVec.toNat_inj, groupAfter_prgCnt hp, groupAfter_prgSize]

theorem groupAfter_chr_complete (hc : c.length ≤ chrLen h) :
    (groupAfter h p c).chrCnt = (groupAfter h p c).chrSize ↔ c.length = chrLen h := by
  rw [← BitVec.toNat_inj, groupAfter_chrCnt hc, groupAfter_chrSize]

theorem groupAfter_prgCrc (h : Header) (p c : List Byte) : (groupAfter h p c).prgCrc = crc32 p := rfl

theorem groupAfter_chrCrc (h : Header) (p c : List Byte) : (groupAfter h p c).chrCrc = crc32 c := rfl

/-- The registers after the header `h`, the PRG bytes `p` and the CHR bytes `c`, before EOS. -/
structure RegionsTaken (h : Header) (p c : List Byte) (s : State) : Prop where
  phase : s.phase = advance .prg (groupAfter h p c)
  valid : s.hdrValid = true
  eos : s.eosSeen = false
  noErr : s.err = none
  noInfo : s.errInfo = 0
  cnt : s.hdrCnt = 16
  group : s.decoded = some (groupAfter h p c)

theorem takes_last_good (hlen : taken.length = 15) (hm : magicOK (headerOf (taken ++ [b])) = true) :
    Takes (HeaderTaken taken) b ⟨.ok, 0⟩ (RegionsTaken (headerOf (taken ++ [b])) [] []) := by
  intro s hs
  have hset : s.hdrBuf.set 15 b = headerOf (taken ++ [b]) := hs.set_last hlen b
  have hpush := execPush_last_good (s := s) (b := b) hs.phase hs.eos (hs.hdrCnt_eq hlen)
    (by rw [hset]; exact hm) rfl rfl
  rw [hset, ← groupAfter_nil] at hpush
  generalize hadv : advance .prg (groupAfter (headerOf (taken ++ [b])) [] []) = q at hpush
  exact ⟨_, hpush, rfl, hadv.symm, rfl, hs.eos, hs.noErr, hs.noInfo, rfl, rfl⟩

theorem takes_prg (hp : p.length < prgLen h) (b : Byte) :
    Takes (RegionsTaken h p c) b ⟨.ok, 1⟩ (RegionsTaken h (p ++ [b]) c) := by
  intro s hs
  have hphase : s.phase = .prg := by
    refine hs.phase.trans ?_
    rw [advance_prg, if_neg (mt (groupAfter_prg_complete hp.le).mp hp.ne)]
  have hpush := execPush_prg (b := b) hphase hs.eos hs.group
  rw [groupAfter_takePrg] at hpush
  exact ⟨_, hpush, rfl, rfl, hs.valid, hs.eos, hs.noErr, hs.noInfo, hs.cnt, rfl⟩

/-- With the PRG region complete, `Advance()` from PRG is `Advance()` from CHR. -/
theorem advance_prg_of_complete (hp : p.length = prgLen h) :
    advance .prg (groupAfter h p c) = advance .chr (groupAfter h p c) := by
  rw [advance_prg, advance_chr, if_pos ((groupAfter_prg_complete hp.le).mpr hp)]

theorem takes_chr (hp : p.length = prgLen h) (hc : c.length < chrLen h) (b : Byte) :
    Takes (RegionsTaken h p c) b ⟨.ok, 2⟩ (RegionsTaken h p (c ++ [b])) := by
  intro s hs
  have hphase : s.phase = .chr := by
    refine hs.phase.trans ?_
    rw [advance_prg_of_complete hp, advance_chr, if_neg (mt (groupAfter_chr_complete hc.le).mp hc.ne)]
  have hpush := execPush_chr (b := b) hphase hs.eos hs.group
  rw [groupAfter_takeChr] at hpush
  exact ⟨_, hpush, rfl, (advance_prg_of_complete hp).symm, hs.valid, hs.eos, hs.noErr, hs.noInfo, hs.cnt, rfl⟩

theorem takes_discarded (hp : p.length = prgLen h) (hc : c.length = chrLen h) (b : Byte) :
    Takes (RegionsTaken h p c) b ⟨.ok, 3⟩ (RegionsTaken h p c) := by
  intro s hs
  have hphase : s.phase = .done := by
    refine hs.phase.trans ?_
    rw [advance_prg_of_complete hp, advance_chr, if_pos ((groupAfter_chr_complete hc.le).mpr hc)]
  exact ⟨_, execPush_done hphase hs.eos, rfl, hs⟩

/-- The PRG bytes of a stream, as far as it goes. -/
def prgBytes (bs : List Byte) : List Byte := (bs.drop 16).take (prgLen (headerOf bs))

/-- The CHR bytes of a stream, as far as it goes. -/
def chrBytes (bs : List Byte) : List Byte := (bs.drop (16 + prgLen (headerOf bs))).take (chrLen (headerOf bs))

theorem length_prgBytes (bs : List Byte) : (prgBytes bs).length = min (prgLen (headerOf bs)) (bs.length - 16) := by
  simp [prgBytes]

theorem length_chrBytes (bs : List Byte) :
    (chrBytes bs).length = min (chrLen (headerOf bs)) (bs.length - 16 - prgLen (headerOf bs)) := by
  simp [chrBytes, Nat.sub_sub]

/-- The header of a good stream, up to the latch. -/
theorem feeds_header_good (hlen : 16 ≤ bs.length) (hm : magicOK (headerOf bs) = true) :
    Feeds (HeaderTaken []) ((bs.take 16).map fun b => (b, ⟨.ok, Tag.header.val⟩)) (RegionsTaken (headerOf bs) [] []) := by
  have hlast := takes_last_good (taken := bs.take 15) (b := bs[15]) (by simp; omega)
    (by rwa [← take_sixteen hlen, headerOf_take])
  rw [← take_sixteen hlen, headerOf_take] at hlast
  rw [take_sixteen hlen, List.map_append]
  exact (feeds_header (by simp)).append (.single hlast)

/-- A good stream: header, PRG, CHR, and the bytes after them, each part empty where the stream is too short for it. -/
theorem feeds_good (hlen : 16 ≤ bs.length) (hm : magicOK (headerOf bs) = true) :
    Feeds (HeaderTaken []) (tagsOf (prgLen (headerOf bs)) (chrLen (headerOf bs)) bs)
      (RegionsTaken (headerOf bs) (prgBytes bs) (chrBytes bs)) := by
  have hP := length_prgBytes bs
  have hC := length_chrBytes bs
  have hprg : Feeds (RegionsTaken (headerOf bs) [] []) ((prgBytes bs).map fun b => (b, ⟨.ok, Tag.prg.val⟩))
      (RegionsTaken (headerOf bs) (prgBytes bs) []) :=
    feeds_map (fun p => RegionsTaken (headerOf bs) p []) (prgBytes bs) fun _ b hlt => takes_prg (by omega) b
  have hchr : Feeds (RegionsTaken (headerOf bs) (prgBytes bs) []) ((chrBytes bs).map fun b => (b, ⟨.ok, Tag.chr.val⟩))
      (RegionsTaken (headerOf bs) (prgBytes bs) (chrBytes bs)) :=
    feeds_map (RegionsTaken (headerOf bs) (prgBytes bs)) (chrBytes bs) fun _ b hlt =>
      takes_chr (by omega) (by omega) b
  refine (((feeds_header_good hlen hm).append hprg).append hchr).append ?_
  refine feeds_map (fun _ => RegionsTaken (headerOf bs) (prgBytes bs) (chrBytes bs)) _ fun _ b hlt => ?_
  rw [List.length_drop] at hlt
  exact takes_discarded (by omega) (by omega) b

theorem tagsOf_bytes (P C : Nat) (bs : List Byte) : (tagsOf P C bs).map Prod.fst = bs := by
  have htake (n m : Nat) : (bs.drop n).take m ++ bs.drop (n + m) = bs.drop n := by
    rw [← List.drop_drop, List.take_append_drop]
  simp [tagsOf, Function.comp_def, htake]

/-- EOS after the header, wherever the stream stands in the regions. -/
theorem ends_regions (bs : List Byte) : Ends (RegionsTaken (headerOf bs) (prgBytes bs) (chrBytes bs)) ⟨.ok, 0⟩
    (fun t => ExtractedAs bs t (groupAfter (headerOf bs) (prgBytes bs) (chrBytes bs))) := by
  intro s hs
  have hphase : s.phase = .prg ∨ s.phase = .chr ∨ s.phase = .done := by
    rcases advance_prg_cases (groupAfter (headerOf bs) (prgBytes bs) (chrBytes bs)) with
      ⟨-, -, hadv⟩ | ⟨-, -, hadv⟩ | ⟨-, hadv⟩
    · exact .inr (.inr (hs.phase.trans hadv))
    · exact .inr (.inl (hs.phase.trans hadv))
    · exact .inl (hs.phase.trans hadv)
  have hP := groupAfter_prgCnt (c := chrBytes bs) ((length_prgBytes bs).trans_le (Nat.min_le_left _ _))
  have hC := groupAfter_chrCnt (p := prgBytes bs) ((length_chrBytes bs).trans_le (Nat.min_le_left _ _))
  refine ⟨_, execEos_ended hphase, rfl, rfl, hs.valid, rfl, hs.noErr, hs.noInfo, hs.cnt, hs.group,
    groupAfter_headerPart _ _ _, hP.trans (length_prgBytes bs), hC.trans (length_chrBytes bs), ?_, ?_⟩
  · rw [groupAfter_prgCrc, hP, length_prgBytes, prgBytes, List.take_eq_take_min, List.length_drop]
  · rw [groupAfter_chrCrc, hC, length_chrBytes, groupAfter_prgSize, chrBytes, List.take_eq_take_min, List.length_drop,
      Nat.sub_sub]

/-- The end of a good stream is described by registers alone. -/
theorem extractedAs_of_regs (h : ExtractedAs bs t.regs d) : ExtractedAs bs t d :=
  ⟨h.phase, h.valid, h.eos, h.noErr, h.noInfo, h.cnt, h.group, h.header, h.prgCnt, h.chrCnt, h.prgCrc, h.chrCrc⟩

/-- Settles O47: the bytes go to the header, the regions and away, and EOS ends the stream in DONE. -/
theorem goodStreamIsDecodedAndExtracted : Obligations.GoodStreamIsDecodedAndExtracted := by
  intro bs s hscript hreset hlen hmagic
  have hm : magicOK (headerOf bs) = true := (magicOK_headerOf (by omega)).mpr hmagic
  obtain ⟨t, hrun, ht, hpush, heos⟩ :=
    hscript.runsTo (feeds_good hlen hm) (tagsOf_bytes _ _ bs) (ends_regions bs) rfl hreset.headerTaken
  exact ⟨t, _, hrun, extractedAs_of_regs ht, hpush, heos⟩

end Sys2Proof.Machine

/-!
SUPPORT. Errors and idling (60_exceptions.md): what an error answer writes, how phase ERROR is left, and the block while the
host issues nothing.
-/

namespace Sys2Proof.Machine

open Sys2Proof

variable {s t : State} {i : Instr} {a : HostAct} {rest : List HostAct}

/-! ### The first error is latched (R233) -/

/-- If `t` answers an error to a command given in `s`, the answer's value is 0, the phase is ERROR, the error is latched
only if it is the first, and the decoded group stands. -/
def LatchesIfError (s t : State) : Prop :=
  ∀ (e : ErrorCode) (v : Word), t.resp = some ⟨.error e, v⟩ →
    v = 0 ∧ t.phase = .error ∧ (s.err = none → t.err = some e) ∧ (s.err ≠ none → t.err = s.err ∧ t.errInfo = s.errInfo)
      ∧ t.decoded = s.decoded ∧ t.hdrValid = s.hdrValid

theorem latchesIfError_respond {st : Status} (hst : st = .ok ∨ st = .aborted) (val : Word) (u : State) :
    LatchesIfError s (respond st val u) := by
  intro e v hr
  obtain ⟨rfl, -⟩ : st = .error e ∧ val = v := by simpa using hr
  rcases hst with h | h <;> cases h

/-- Before it raises, a command writes at most the header buffer, its count and `EOS_SEEN`. -/
theorem latchesIfError_raise {u : State}
    (hu : u = { s with hdrBuf := u.hdrBuf, hdrCnt := u.hdrCnt, eosSeen := u.eosSeen }) (e : ErrorCode) (info : Word) :
    LatchesIfError s (raise e info u) := by
  intro e' v hr
  obtain ⟨rfl, rfl⟩ : e = e' ∧ 0 = v := by simpa using hr
  have hraised := raise_raised e info u
  have herr : u.err = s.err := by rw [hu]
  have hinfo : u.errInfo = s.errInfo := by rw [hu]
  refine ⟨rfl, hraised.phase, fun h => (hraised.first (herr.trans h)).1, fun h => ?_, ?_, ?_⟩
  · rw [← herr, ← hinfo]
    exact hraised.later (herr ▸ h)
  · exact (raise_decoded e info u).trans (by rw [hu])
  · exact (raise_hdrValid e info u).trans (by rw [hu])

theorem latchesIfError_execPush {b : Byte} (ht : execPush b s = .next t) : LatchesIfError s t := by
  rcases execPush_cases ht with ⟨-, rfl⟩ | ⟨-, -, rfl⟩ | ⟨-, -, -, rfl⟩ | ⟨-, -, -, -, rfl⟩ | ⟨-, -, -, -, rfl⟩ |
    ⟨d, -, -, -, rfl⟩ | ⟨d, -, -, -, rfl⟩ | ⟨-, -, rfl⟩
  · exact latchesIfError_respond (.inr rfl) _ _
  · exact latchesIfError_raise rfl _ _
  · exact latchesIfError_respond (.inl rfl) _ _
  · exact latchesIfError_raise rfl _ _
  · exact latchesIfError_respond (.inl rfl) _ _
  · exact latchesIfError_respond (.inl rfl) _ _
  · exact latchesIfError_respond (.inl rfl) _ _
  · exact latchesIfError_respond (.inl rfl) _ _

theorem latchesIfError_exec (ht : exec i s = .next t) : LatchesIfError s t := by
  cases i with
  | push b => exact latchesIfError_execPush ht
  | eos =>
    rcases execEos_cases ht with ⟨-, rfl⟩ | ⟨-, rfl⟩ | ⟨-, rfl⟩
    · exact latchesIfError_respond (.inr rfl) _ _
    · exact latchesIfError_raise rfl _ _
    · exact latchesIfError_respond (.inl rfl) _ _
  | rdreg idx =>
    rcases execRdreg_cases ht with ⟨-, rfl⟩ | ⟨r, v, -, -, -, rfl⟩ | ⟨r, -, -, rfl⟩
    · exact latchesIfError_raise rfl _ _
    · exact latchesIfError_respond (.inl rfl) _ _
    · exact latchesIfError_raise rfl _ _
  | getbit pos b =>
    rcases execGetbit_cases ht with ⟨-, rfl⟩ | ⟨-, -, -, rfl⟩ | ⟨-, -, rfl⟩
    · exact latchesIfError_respond (.inr rfl) _ _
    · exact latchesIfError_respond (.inl rfl) _ _
    · exact latchesIfError_raise rfl _ _
  | mapc f6 f7 =>
    rcases execMapc_cases ht with ⟨-, rfl⟩ | ⟨-, rfl⟩
    · exact latchesIfError_respond (.inr rfl) _ _
    · exact latchesIfError_respond (.inl rfl) _ _
  | sizc sel n =>
    rcases execSizc_cases ht with ⟨-, rfl⟩ | ⟨-, rfl⟩
    · exact latchesIfError_respond (.inr rfl) _ _
    · exact latchesIfError_respond (.inl rfl) _ _
  | clear => cases ht; exact latchesIfError_respond (.inl rfl) _ _

/-- Settles O42: every error answer is a `raise`, and nothing before it writes `ERR`, `ERRINFO` or the decoded group. -/
theorem errorAnswerLatchesTheFirstError : Obligations.ErrorAnswerLatchesTheFirstError :=
  fun _ _ _ e v ht hr => latchesIfError_exec ht e v hr

/-! ### Phase ERROR is left only by CLEAR or reset (R235) -/

/-- With an error latched in phase ERROR, the ERROR gate answers every command but RDREG, which reads or raises again. -/
theorem exec_keeps_regs_of_latched (hp : s.phase = .error) (he : s.err.isSome = true) (hclear : i ≠ .clear)
    (ht : exec i s = .next t) : t.regs = s.regs := by
  by_cases hrdreg : ∃ idx, i = .rdreg idx
  · obtain ⟨idx, rfl⟩ := hrdreg
    rcases exec_responds_or_raises (by simp) (by simp) hclear ht with ⟨st, v, rfl⟩ | ⟨e, info, rfl⟩
    · exact respond_regs st v s
    · exact raise_regs_of_latched e info hp he
  · rw [exec_aborted hp (not_exists.mp hrdreg) hclear] at ht
    cases ht
    exact respond_regs .aborted 0 s

theorem step_keeps_regs_of_latched (hp : s.phase = .error) (he : s.err.isSome = true)
    (hend : ∀ a, s.issue.head? = some a → a.endsInvocation = false) (ht : step s = .next t) : t.regs = s.regs := by
  rcases step_cases ht with ⟨-, rfl⟩ | ⟨rest, hi, -⟩ | ⟨w, rest, e, -, -, rfl⟩ | ⟨w, rest, i, hi, hdec, hx⟩
  · exact idle_regs s
  · simpa [HostAct.endsInvocation] using hend .assertReset (by simp [hi])
  · exact raise_regs_of_latched (s := { s with issue := rest }) .illegalCommand w hp he
  · exact exec_keeps_regs_of_latched (s := { s with issue := rest }) hp he
      (ne_clear_of_not_endsInvocation (hend (.command w) (by simp [hi])) hdec) hx

theorem endsInvocation_cases (h : a.endsInvocation = true) :
    a = .assertReset ∨ ∃ w, a = .command w ∧ decode w = .ok .clear := by
  cases a with
  | assertReset => exact .inl rfl
  | command w =>
    simp only [HostAct.endsInvocation] at h
    split at h
    · next hd => exact .inr ⟨w, rfl, hd⟩
    · cases h

/-- From any state, the action that ends the invocation gives the reset values. -/
theorem step_atReset_of_endsInvocation (hend : a.endsInvocation = true) (hi : s.issue = a :: rest)
    (ht : step s = .next t) : AtReset t := by
  rcases endsInvocation_cases hend with rfl | ⟨w, rfl, hd⟩
  · obtain ⟨-, hreset⟩ := clearGivesTheResetState
    rw [hreset s rest hi] at ht
    cases ht
    exact clearBlock_atReset { s with issue := rest }
  · rw [step_of_decode_ok hi hd] at ht
    cases ht
    exact (clearBlock_atReset _).after_respond .ok 0

/-- Settles O38: the two clauses are lemmas about the step. -/
theorem latchedErrorIsSticky : Obligations.LatchedErrorIsSticky := by
  intro s t hp he ht
  refine ⟨fun hend => step_keeps_regs_of_latched hp he hend ht, fun ⟨a, ha, hend⟩ => ?_⟩
  obtain ⟨rest, hi⟩ := List.head?_eq_some_iff.mp ha
  exact step_atReset_of_endsInvocation hend hi ht

/-! ### Idling (R240) -/

theorem step_idle (hi : s.issue = []) : step s = .next (idle s) := by rw [step, hi]

/-- Settles O10: the step without an action is `idle`, which only clears the port. -/
theorem idleBlockHoldsItsState : Obligations.IdleBlockHoldsItsState := fun _ hi => step_idle hi

end Sys2Proof.Machine
